-- ==== Sys2Proof/Word.lean ====
section
/-! DEFINITION. The value types of the wordenc CORE (spec 00 R12, R13; 10 preamble). -/

namespace Sys2Proof

/-- An unsigned 8-bit value (00 R13). -/
abbrev Byte := BitVec 8

/-- An unsigned 11-bit symbol index, 0 to 2047 (00 R12, R13; 30 R99). -/
abbrev Symbol := BitVec 11

/-- A 32-bit register, command word or host access value (10 preamble, 30 R90). -/
abbrev Word := BitVec 32

/-- A 64-bit quantity seen by the host as a `_LO` and a `_HI` register (10 preamble). -/
abbrev DWord := BitVec 64

/-- The stored bits 11:0 of an IBUF slot (20 R62). -/
abbrev InEntry := BitVec 12

/-- The stored bits 15:0 of an OBUF slot (20 R63). -/
abbrev OutEntry := BitVec 16

end Sys2Proof
end

