-- ==== Sys2Proof/Syntax.lean ====
section
/-! DEFINITION. The commands of the block (spec 30 §1), the fields of a command word, and what the outside world can
do to the block (host accesses, 20 §2 and 30 §5; RESET, 70 R330). -/

namespace Sys2Proof

/-- The seven commands, one constructor per row of spec/opcode_table.json (30 R93). A command has no operand fields
(30 R90): its operands are IN_LEN, IBUF, CTRL and MAX_LEN. -/
inductive Instr where
  /-- ENCODE.RAW, 0x00000001 (40 R137). -/
  | encodeRaw
  /-- ENCODE.FRAMED, 0x00000011 (42 R201). -/
  | encodeFramed
  /-- DECODE.RAW, 0x00000002 (43 R243). -/
  | decodeRaw
  /-- DECODE.FRAMED, 0x00000012 (43 R244). -/
  | decodeFramed
  /-- DECODE.AUTO, 0x00000022 (43 R246). -/
  | decodeAuto
  /-- FRAME.WRAP, 0x00000003 (42 R202). -/
  | frameWrap
  /-- FRAME.UNWRAP, 0x00000013 (42 R204). -/
  | frameUnwrap
  deriving DecidableEq, Repr

/-- The three fields of a command word (30 R90). -/
structure CommandFields where
  /-- OP, bits 3:0 (30 R91). -/
  op : BitVec 4
  /-- SUB, bits 5:4 (30 R92). -/
  sub : BitVec 2
  /-- RSV, bits 31:6, must be 0 (30 R90). -/
  rsv : BitVec 26
  deriving DecidableEq, Repr

/-- One thing the outside world does to the block. `width` is the access's width in bits and `offset` is relative to
BLOCK_BASE (20 R60, R64). -/
inductive HostEvent where
  /-- A host write of `value` (30 R104, `WR` and `WRI`). -/
  | write (width : Nat) (offset : Word) (value : Word)
  /-- A host read (30 R104, `RD` and `RDO`). -/
  | read (width : Nat) (offset : Word)
  /-- The platform asserts RESET (70 R330). -/
  | reset
  deriving DecidableEq, Repr

end Sys2Proof
end

