-- ==== Sys2Proof/WellFormed.lean ====
section
/-! DEFINITION. When the fields of a command word are legal (spec 30 R90 to R94) and when a host access is inside the
interface (20 R64). -/

namespace Sys2Proof

/-- RSV must be 0 (30 R90). -/
def CommandFields.rsvOk (f : CommandFields) : Bool := f.rsv == 0#26

/-- OP = 0x1, 0x2 and 0x3 are the operation classes, every other value is reserved (30 R91). -/
def CommandFields.opOk (f : CommandFields) : Bool :=
  f.op == 1#4 || f.op == 2#4 || f.op == 3#4

/-- The SUB values of each class: RAW and FRAMED for ENCODE, RAW, FRAMED and AUTO for DECODE, WRAP and UNWRAP for
FRAME (30 R92). -/
def CommandFields.subOk (f : CommandFields) : Bool :=
  if f.op == 2#4 then f.sub != 3#2 else f.sub == 0#2 || f.sub == 1#2

/-- All three checks of 30 R94. -/
def CommandFields.wellFormed (f : CommandFields) : Bool := f.rsvOk && f.opOk && f.subOk

/-- Every host access is 32 bits wide (20 R64). -/
def HostEvent.widthOk : HostEvent → Bool
  | .write width _ _ => width == 32
  | .read width _ => width == 32
  | .reset => true

/-- Every host access is at a multiple of 4 (20 R64). -/
def HostEvent.alignedOk : HostEvent → Bool
  | .write _ offset _ => offset.toNat % 4 == 0
  | .read _ offset => offset.toNat % 4 == 0
  | .reset => true

/-- The access is inside the interface (20 R64); RESET always is. -/
def HostEvent.wellFormed (e : HostEvent) : Bool := e.widthOk && e.alignedOk

end Sys2Proof
end

