-- ==== Sys2Proof/Decode.lean ====
section
/-! DEFINITION. The decoder of command words, total and rejecting by name, and the encoder (spec 30 R90 to R95). -/

namespace Sys2Proof

/-- Why a word is no command: the three groups of illegal words of 30 R94. -/
inductive DecodeError where
  /-- A bit of 31:6 is set. -/
  | reservedBits
  /-- OP = 0x0 or OP in 0x4 to 0xF. -/
  | reservedOp
  /-- SUB is reserved for this OP. -/
  | reservedSub
  deriving DecidableEq, Repr

/-- The fields of a command word (30 R90). -/
def CommandFields.ofWord (w : Word) : CommandFields where
  op := w.extractLsb' 0 4
  sub := w.extractLsb' 4 2
  rsv := w.extractLsb' 6 26

/-- The word with these fields (30 R90). -/
def CommandFields.toWord (f : CommandFields) : Word := (f.rsv ++ f.sub ++ f.op).setWidth 32

/-- The table of 30 R91 and R92, read from OP and SUB to the command. -/
def instrOfOpSub (op : BitVec 4) (sub : BitVec 2) : Option Instr :=
  match op.toNat, sub.toNat with
  | 1, 0 => some .encodeRaw
  | 1, 1 => some .encodeFramed
  | 2, 0 => some .decodeRaw
  | 2, 1 => some .decodeFramed
  | 2, 2 => some .decodeAuto
  | 3, 0 => some .frameWrap
  | 3, 1 => some .frameUnwrap
  | _, _ => none

/-- The decoder: any word is one of the seven commands or illegal (30 R94, R95). -/
def decode (w : Word) : Except DecodeError Instr :=
  let f := CommandFields.ofWord w
  if !f.rsvOk then .error .reservedBits
  else if !f.opOk then .error .reservedOp
  else match instrOfOpSub f.op f.sub with
    | some i => .ok i
    | none => .error .reservedSub

/-- `legal(w)` of 30 R94. -/
def legal (w : Word) : Bool := (decode w).isOk

/-- The OP, SUB and RSV of each command (30 R91, R92). -/
def Instr.fields : Instr → CommandFields
  | .encodeRaw => ⟨1#4, 0#2, 0#26⟩
  | .encodeFramed => ⟨1#4, 1#2, 0#26⟩
  | .decodeRaw => ⟨2#4, 0#2, 0#26⟩
  | .decodeFramed => ⟨2#4, 1#2, 0#26⟩
  | .decodeAuto => ⟨2#4, 2#2, 0#26⟩
  | .frameWrap => ⟨3#4, 0#2, 0#26⟩
  | .frameUnwrap => ⟨3#4, 1#2, 0#26⟩

/-- A command is well formed when its fields are. A command has no operands, so every one is
(`Laws.instr_wellFormed`). -/
def Instr.wellFormed (i : Instr) : Bool := i.fields.wellFormed

/-- The command word of a command (30 R93). -/
def encode (i : Instr) : Word := i.fields.toWord

/-- The host's question: the instruction the decoder reads from an instruction whose low `nbits` bits are `w` and
whose other bits are 0. A command word is 32 bits (30 R90, R106). -/
def decodeTableWord (nbits w : Nat) : Option Instr :=
  match decode (BitVec.ofNat 32 (w % 2 ^ nbits)) with
  | .ok i => some i
  | .error _ => none

end Sys2Proof
end

