-- ==== Sys2Proof/Config.lean ====
section
/-! DEFINITION. What an implementation of the block fixes (spec 00 §3) and the free values the spec leaves open.
Every open value is an `opaque` constant: no proof can see which one it is. -/

namespace Sys2Proof

/-- The two readings of auto mode's truncation with partial results off (00 R11, 90 C3). -/
inductive AutoTrunc where
  | hardFail
  | fallbackRaw
  deriving DecidableEq, Repr, Inhabited

/-- The parameters of one block, fixed for its life (00 §3; 10 R40, R41, R48). -/
structure Params where
  /-- `MAGIC`: exactly 8 bytes, `MAGIC[0]` first on the wire (00 R8). -/
  magic : Vector Byte 8
  /-- `IBUF_DEPTH` (00 R9). -/
  ibufDepth : Nat
  /-- `OBUF_DEPTH` (00 R10). -/
  obufDepth : Nat
  /-- `AUTO_TRUNC_NOPARTIAL` (00 R11). -/
  autoTrunc : AutoTrunc
  deriving DecidableEq, Repr

/-- `OBUF_MIN(D)` of 00 R10: the longest decode result, the longest framed encode result and the longest
FRAME.WRAP result. -/
def obufMin (d : Nat) : Nat :=
  max (11 * d / 8) (max ((8 * (d + 13) + 10) / 11) (d + 13))

/-- The bounds of 00 R9 and R10 on the two depths. -/
abbrev Params.wf (p : Params) : Prop :=
  1 ≤ p.ibufDepth ∧ p.ibufDepth ≤ 2 ^ 28 ∧ obufMin p.ibufDepth ≤ p.obufDepth ∧ p.obufDepth ≤ 2 ^ 28

namespace Config

/-- `SYMBOL_BITS` (00 §3). -/
def symbolBits : Nat := 11

/-- `MAGIC_LEN` (00 §3). -/
def magicLen : Nat := 8

/-- `VARINT_MAX_BYTES` (00 §3; entry 13). -/
def varintMaxBytes : Nat := 10

/-- `MAX_LEN_RESET`, 256 MiB (00 §3, 10 R33; UNVERIFIED literal of the source, entry 13). -/
def maxLenReset : Nat := 268435456

/-- The largest `IBUF_DEPTH` for which 00 R10 leaves an `OBUF_DEPTH` at all: beyond it `OBUF_MIN` exceeds `2^28`
(DEDUCED, entry 2, safe). -/
def ibufDepthMax : Nat := 195225786

/-- The magic constant: OPEN (00 R8, 93 U1; entry 2, safe). -/
opaque magic : Vector Byte 8

/-- The free choice behind `ibufDepth` (93 U2; entry 2, safe). -/
opaque ibufDepthChoice : Nat

/-- The free choice behind `obufDepth` (93 U2; entry 2, safe). -/
opaque obufDepthChoice : Nat

/-- `AUTO_TRUNC_NOPARTIAL`: OPEN (00 R11, 93 U13; entry 2, safe). -/
opaque autoTrunc : AutoTrunc

/-- `BLOCK_BASE`, the bus address of offset 0: OPEN (20 R60, 93 U2; entry 3, safe). -/
opaque blockBase : Nat

/-- `LATENCY`: how many host accesses the block serves while the command issued at draw `n` is running
(70 R342, 93 U15; entry 4, safe). -/
opaque latency : Nat → Nat

/-- The `n`-th arbitrary value a host read returns (70 R335, 20 R67, 93 U4 to U6; entry 9, safe). -/
opaque freeWord : Nat → Word

/-- CUR after the completion at draw `n`, while idle: unspecified (10 R44, 93 U7; entry 11, safe). -/
opaque idleCur : Nat → Word

/-- The engine's input index after the completion at draw `n`, while idle: unspecified (10 R44, 93 U7; entry 11,
safe). -/
opaque idleInIndex : Nat → Nat

/-- The engine's output index after the completion at draw `n`, while idle: unspecified (10 R44, 93 U7; entry 11,
safe). -/
opaque idleOutIndex : Nat → Nat

/-- `IBUF_DEPTH`: any value from 1 to `ibufDepthMax`. -/
def ibufDepth : Nat := ibufDepthChoice % ibufDepthMax + 1

/-- `OBUF_DEPTH`: any value from `obufMin ibufDepth` to `2^28`. -/
def obufDepth : Nat := obufMin ibufDepth + obufDepthChoice % (2 ^ 28 - obufMin ibufDepth + 1)

/-- The parameters of the block this model is a model of. -/
def params : Params where
  magic := magic
  ibufDepth := ibufDepth
  obufDepth := obufDepth
  autoTrunc := autoTrunc

end Config
end Sys2Proof
end

