-- ==== Sys2Proof/Machine/State.lean ====
section
/-! DEFINITION. The state of the block (spec 10, 20 R62 to R67), its fault and refusals, and its value after reset
(70 R331). BUSY is not stored twice: it is whether `phase` is busy (10 R44). CMD holds no value (10 R21). -/

namespace Sys2Proof.Machine

/-- STATUS.CODE, the defect signal (10 R26, 60 R291). Values 8 to 15 are never produced, so they have no
constructor. -/
inductive Code where
  /-- 0 NONE. -/
  | noDefect
  /-- 1 BAD_WORD (60 R292). -/
  | badWord
  /-- 2 BAD_PADDING (60 R293). -/
  | badPadding
  /-- 3 BAD_HEADER (60 R294). -/
  | badHeader
  /-- 4 ABSURD_LENGTH (60 R295). -/
  | absurdLength
  /-- 5 TRUNCATED (60 R296). -/
  | truncated
  /-- 6 ILLEGAL_COMMAND (60 R297). -/
  | illegalCommand
  /-- 7 CAPACITY (60 R298). -/
  | capacity
  deriving DecidableEq, Repr

/-- STATUS.RESULT, the terminal state of the last command (10 R27). -/
inductive Terminal where
  | accept
  | fallbackRaw
  | partialAccept
  | hardFail
  deriving DecidableEq, Repr

/-- The stored fields of STATUS (10 R22 to R31); BUSY is `State.busy`, the reserved bits read 0. -/
structure Status where
  done : Bool
  ignoredWrite : Bool
  code : Code
  result : Terminal
  framed : Bool
  padClean : Bool
  padCount : BitVec 3
  unpacked : Bool
  deriving DecidableEq, Repr

/-- The two flags of CTRL (10 R32); bits 31:2 are not stored. -/
structure Ctrl where
  allowPartial : Bool
  strictPadding : Bool
  deriving DecidableEq, Repr

/-- The bit accumulator: ACC, 18 bits, and ACC_CNT, 5 bits (10 R43). -/
structure Accumulator where
  acc : BitVec 18
  cnt : BitVec 5
  deriving DecidableEq, Repr

/-- PHASE (10 R44). -/
inductive Phase where
  | idle
  | busy
  deriving DecidableEq, Repr

/-- IBUF: the written entries by index, indices strictly rising; an unlisted entry holds no value (20 R66;
entry 14). -/
abbrev Memory := List (Nat × InEntry)

/-- The state of the block (10 R20). -/
structure State where
  /-- The hard-wired parameters, seen in MAGIC_LO, MAGIC_HI, IBUF_DEPTH and OBUF_DEPTH (10 R40, R41; entry 1). -/
  params : Params
  /-- STATUS but for BUSY (10 R22). -/
  status : Status
  /-- CTRL (10 R32). -/
  ctrl : Ctrl
  /-- MAX_LEN (10 R33). -/
  maxLen : DWord
  /-- IN_LEN (10 R34). -/
  inLen : Word
  /-- OUT_LEN (10 R35). -/
  outLen : Word
  /-- DECL_LEN (10 R36). -/
  declLen : DWord
  /-- HDR_LEN (10 R37). -/
  hdrLen : Word
  /-- BADWORD_POS (10 R38). -/
  badwordPos : Word
  /-- LAST_CMD (10 R39). -/
  lastCmd : Word
  /-- IBUF (20 R62, R66). -/
  ibuf : Memory
  /-- OBUF: entry i of the list is OBUF[i]; entries above the list hold no value (20 R63, R67). -/
  obuf : List OutEntry
  /-- ACC and ACC_CNT (10 R43). -/
  accumulator : Accumulator
  /-- The sequencer's PHASE (10 R44). -/
  phase : Phase
  /-- The sequencer's CUR, the word of the command in progress; unspecified and unused while idle (10 R44; entry 11). -/
  cur : Word
  /-- The engine's progress through the input, an index into IBUF; unspecified and unused while idle (10 R44;
  entry 11). -/
  inIndex : Nat
  /-- The engine's progress through the result, an index into OBUF; unspecified and unused while idle (10 R44;
  entry 11). -/
  outIndex : Nat
  /-- MODEL's own: how many more host accesses are served before the running command completes (LATENCY, 70 R342;
  entry 4). -/
  wait : Nat
  /-- MODEL's own: the host accesses and RESETs still to come, oldest first (entry 5). -/
  pending : List HostEvent
  /-- MODEL's own: the values host reads have returned, oldest first (entry 5). -/
  replies : List Word
  /-- MODEL's own: how many arbitrary values have been drawn (entry 9). -/
  draws : Nat
  deriving DecidableEq, Repr

/-- What stops the machine. -/
inductive Fault where
  /-- Raised by a command that reads IBUF entry `index` below IN_LEN when the host has not written it since reset
  (20 R66, 93 U3; entry 6). Safe: the model stops where the hardware would compute from an unspecified value. -/
  | unwrittenInput (index : Nat)
  deriving DecidableEq, Repr

/-- What has no meaning in the model. -/
inductive Refusal where
  /-- Raised by an arm of `exec` whose command has no meaning yet (no arm does). Safe. -/
  | notModelled (mnemonic : String)
  /-- Raised by a host access that is not 32 bits wide or not at a multiple of 4 (20 R64, 93 U8; entry 15). Safe: the
  spec puts such an access outside the interface. -/
  | outsideInterface (width : Nat) (offset : Word)
  deriving DecidableEq, Repr

/-- STATUS after reset, 0x00000000 (70 R331). -/
def Status.reset : Status where
  done := false
  ignoredWrite := false
  code := .noDefect
  result := .accept
  framed := false
  padClean := false
  padCount := 0#3
  unpacked := false

/-- ACC = 0 and ACC_CNT = 0 (10 R43). -/
def Accumulator.empty : Accumulator := ⟨0#18, 0#5⟩

/-- The machine right after reset (70 R331). The buffers hold no value. CUR and the indices are unspecified there: 0 is
a DESIGN CHOICE (entry 11, unsafe). `wait`, `pending`, `replies` and `draws` are the model's own fields, their values
DESIGN CHOICE (entries 4, 5 and 9, unsafe). -/
def State.reset : State where
  params := Config.params
  status := Status.reset
  ctrl := ⟨false, false⟩
  maxLen := BitVec.ofNat 64 Config.maxLenReset
  inLen := 0#32
  outLen := 0#32
  declLen := 0#64
  hdrLen := 0#32
  badwordPos := 0#32
  lastCmd := 0#32
  ibuf := []
  obuf := []
  accumulator := Accumulator.empty
  phase := .idle
  cur := 0#32
  inIndex := 0
  outIndex := 0
  wait := 0
  pending := []
  replies := []
  draws := 0

end Sys2Proof.Machine
end

