-- ==== Sys2Proof/Machine/Ops.lean ====
section
/-! DEFINITION. The named operations over memory and registers: reading and writing IBUF (spec 20 R66), drawing an
arbitrary value, the outcome record (10 R46) and completion (10 R47). The block takes no exception (60 R305): where
another machine would, it completes with an outcome, so `State.finish` is the one shared operation every defect goes
through (00 R16), and there is no return from it (60 R306). -/

namespace Sys2Proof.Machine

/-- IBUF entry `i`, or no value when the host has not written it since reset (20 R66). -/
def Memory.read : Memory → Nat → Option InEntry
  | [], _ => none
  | (k, v) :: m, i => if k = i then some v else Memory.read m i

/-- IBUF with entry `i` holding `v` (20 R66); the indices stay strictly rising. -/
def Memory.write : Memory → Nat → InEntry → Memory
  | [], i, v => [(i, v)]
  | (k, u) :: m, i, v =>
    if k < i then (k, u) :: Memory.write m i v
    else if k = i then (i, v) :: m
    else (i, v) :: (k, u) :: m

/-- The canonical form: indices strictly rising. An unlisted entry holds no value, so no listed entry equals what an
unlisted one reads as. -/
abbrev Memory.wf (m : Memory) : Prop := m.Pairwise (fun a b => a.1 < b.1)

/-- STATUS.BUSY: 1 exactly while a command runs (10 R23, R44). -/
def State.busy (s : State) : Bool :=
  match s.phase with
  | .idle => false
  | .busy => true

/-- An arbitrary value, a new one at each draw (93, treatment `any value`; entry 9). -/
def State.draw (s : State) : Word × State :=
  (Config.freeWord s.draws, { s with draws := s.draws + 1 })

/-- The outcome record of a command (10 R46). The data are OBUF entries already (30 R98). -/
structure CmdOutcome where
  code : Code
  result : Terminal
  framed : Bool
  unpacked : Bool
  padClean : Bool
  padCount : BitVec 3
  data : List OutEntry
  declLen : DWord
  hdrLen : Word
  badwordPos : Word
  deriving DecidableEq, Repr

/-- The outcome `O0` from which every rule builds its own (10 R46). -/
def outcome0 : CmdOutcome where
  code := .noDefect
  result := .accept
  framed := false
  unpacked := false
  padClean := false
  padCount := 0#3
  data := []
  declLen := 0#64
  hdrLen := 0#32
  badwordPos := 0#32

/-- `finish(o)`, completion (10 R47). It writes OBUF, the result registers and STATUS, clears the accumulator and
leaves the block idle. IGNORED_WRITE is not changed (10 R25), and neither are LAST_CMD, CTRL, MAX_LEN, IN_LEN and IBUF
(60 R302). OBUF entries at and above OUT_LEN hold no value afterwards (20 R67). While idle CUR and the indices are
unspecified (10 R44, 93 U7): each takes a free value (entry 11). -/
def State.finish (s : State) (o : CmdOutcome) : State :=
  { s with
    obuf := o.data
    outLen := BitVec.ofNat 32 o.data.length
    status :=
      { s.status with
        done := true
        code := o.code
        result := o.result
        framed := o.framed
        unpacked := o.unpacked
        padClean := o.padClean
        padCount := o.padCount }
    declLen := o.declLen
    hdrLen := o.hdrLen
    badwordPos := o.badwordPos
    accumulator := Accumulator.empty
    phase := .idle
    cur := Config.idleCur s.draws
    inIndex := Config.idleInIndex s.draws
    outIndex := Config.idleOutIndex s.draws
    draws := s.draws + 1 }

/-- The outcome of a word that is no command (60 R297). -/
def illegalOutcome : CmdOutcome := { outcome0 with code := .illegalCommand, result := .hardFail }

/-- The outcome of a command issued with IN_LEN above IBUF_DEPTH (60 R298). -/
def capacityOutcome : CmdOutcome := { outcome0 with code := .capacity, result := .hardFail }

/-- The outcome of a DECODE whose token `p` is absent from the vocabulary (43 R240, 60 R292). -/
def badWordOutcome (p : Nat) : CmdOutcome :=
  { outcome0 with code := .badWord, result := .hardFail, badwordPos := BitVec.ofNat 32 p }

/-- Command issue: what a host write of `w` to CMD does while idle (10 R45). The checks come in the order
ILLEGAL_COMMAND, CAPACITY (60 R300). A legal, in-capacity command makes the block BUSY; it then stays BUSY for
`Config.latency` further host accesses (entry 4). -/
def State.issue (s : State) (w : Word) : State :=
  let s1 := { s with lastCmd := w, status := { s.status with ignoredWrite := false, done := false } }
  if !legal w then s1.finish illegalOutcome
  else if s.params.ibufDepth < s.inLen.toNat then s1.finish capacityOutcome
  else
    { s1 with
      phase := .busy
      cur := w
      inIndex := 0
      outIndex := 0
      wait := Config.latency s.draws
      accumulator := Accumulator.empty
      draws := s.draws + 1 }

/-- The platform asserts RESET (70 R331): a running command is aborted without completing, and every piece of the
block's state takes its reset value. The hard-wired parameters are not changed (10 R40, R41), and the model's own
record of the outside world goes on (entry 17). -/
def State.applyReset (s : State) : State :=
  { State.reset with params := s.params, pending := s.pending, replies := s.replies, draws := s.draws }

end Sys2Proof.Machine
end

