-- ==== Sys2Proof/Machine/Flags.lean ====
section
/-! DEFINITION. The flags of the block: the layout of STATUS and CTRL as the host reads them (spec 10 R22 to R32) and
the padding flags (10 R29, R30; 41 R162, R165). -/

namespace Sys2Proof.Machine

/-- The number of a CODE value (10 R26). -/
def Code.bits : Code → BitVec 4
  | .noDefect => 0#4
  | .badWord => 1#4
  | .badPadding => 2#4
  | .badHeader => 3#4
  | .absurdLength => 4#4
  | .truncated => 5#4
  | .illegalCommand => 6#4
  | .capacity => 7#4

/-- The number of a RESULT value (10 R27). -/
def Terminal.bits : Terminal → BitVec 2
  | .accept => 0#2
  | .fallbackRaw => 1#2
  | .partialAccept => 2#2
  | .hardFail => 3#2

/-- The STATUS word made of its fields, reserved bits 0 (10 R22): UNPACKED 15, PAD_COUNT 14:12, PAD_CLEAN 11,
FRAMED 10, RESULT 9:8, CODE 7:4, IGNORED_WRITE 2, DONE 1, BUSY 0. -/
def packStatus (unpacked : BitVec 1) (padCount : BitVec 3) (padClean framed : BitVec 1) (result : BitVec 2)
    (code : BitVec 4) (ignoredWrite done busy : BitVec 1) : Word :=
  (unpacked ++ padCount ++ padClean ++ framed ++ result ++ code ++ 0#1 ++ ignoredWrite ++ done ++ busy).setWidth 32

/-- STATUS as the host reads it while idle (10 R22). -/
def State.statusWord (s : State) : Word :=
  packStatus (.ofBool s.status.unpacked) s.status.padCount (.ofBool s.status.padClean) (.ofBool s.status.framed)
    s.status.result.bits s.status.code.bits (.ofBool s.status.ignoredWrite) (.ofBool s.status.done) (.ofBool s.busy)

/-- STATUS as the host reads it while BUSY: the fields CODE, RESULT, FRAMED, PAD_CLEAN, PAD_COUNT and UNPACKED are
those of the arbitrary word `x`, the others hold their current values and the reserved bits read 0 (70 R335). -/
def State.busyStatusWord (s : State) (x : Word) : Word :=
  packStatus (x.extractLsb' 15 1) (x.extractLsb' 12 3) (x.extractLsb' 11 1) (x.extractLsb' 10 1) (x.extractLsb' 8 2)
    (x.extractLsb' 4 4) (.ofBool s.status.ignoredWrite) (.ofBool s.status.done) (.ofBool s.busy)

/-- CTRL as the host reads it: bits 31:2 read 0 (10 R32). -/
def Ctrl.word (c : Ctrl) : Word := (BitVec.ofBool c.strictPadding ++ BitVec.ofBool c.allowPartial).setWidth 32

/-- CTRL after a host write of `v`: bits 31:2 are discarded (10 R32). -/
def Ctrl.ofWord (v : Word) : Ctrl := ⟨v.getLsbD 0, v.getLsbD 1⟩

/-- PAD_CLEAN: every leftover bit is zero (41 R162). -/
def Accumulator.padClean (a : Accumulator) : Bool := a.acc == 0#18

/-- PAD_COUNT: the number of leftover bits, 0 to 7 (41 R162, 90 C2). -/
def Accumulator.padCount (a : Accumulator) : BitVec 3 := a.cnt.truncate 3

/-- `bad_padding` (41 R165). -/
def badPadding (c : Ctrl) (padClean : Bool) : Bool := c.strictPadding && !padClean

end Sys2Proof.Machine
end

