-- ==== Sys2Proof/Machine/BitStream.lean ====
section
/-! DEFINITION. The bit accumulator's steps in both directions: the packer (spec 40 R130 to R133) and the unpacker
(41 R160 to R163). The arithmetic is exact, on naturals (00 R14), and narrows to the 18 and 5 bits of ACC and ACC_CNT
when a step ends (10 R43). -/

namespace Sys2Proof.Machine

/-- `mask(k)` is 2^k − 1 (00 R14). -/
def mask (k : Nat) : Nat := 2 ^ k - 1

/-- The loop of 40 R131 (`w` = 11) and 41 R161 (`w` = 8): while at least `w` bits are valid, emit the top `w` and
remove them. It gives the emitted values, the remaining bits and their count. `fuel` bounds the passes; `cnt` of them
are enough. -/
def drain (w : Nat) : (fuel acc cnt : Nat) → List Nat × Nat × Nat
  | 0, acc, cnt => ([], acc, cnt)
  | fuel + 1, acc, cnt =>
    if w ≤ cnt then
      let r := drain w fuel (acc &&& mask (cnt - w)) (cnt - w)
      (((acc >>> (cnt - w)) &&& mask w) :: r.1, r.2)
    else ([], acc, cnt)

/-- One accumulator step: shift in the `inW` bits of `x`, then emit every whole group of `outW` bits, most significant
first (20 R70). -/
def Accumulator.push (inW outW : Nat) (a : Accumulator) (x : Nat) : List Nat × Accumulator :=
  let cnt := a.cnt.toNat + inW
  let r := drain outW cnt ((a.acc.toNat <<< inW) ||| x) cnt
  (r.1, ⟨BitVec.ofNat 18 r.2.1, BitVec.ofNat 5 r.2.2⟩)

/-- PACK_STEP (40 R131): the symbols emitted and the accumulator left. -/
def packStep (a : Accumulator) (b : Byte) : List Symbol × Accumulator :=
  let r := a.push 8 11 b.toNat
  (r.1.map (BitVec.ofNat 11), r.2)

/-- PACK_STEP for every byte in increasing index order (40 R133). -/
def packBytes : Accumulator → List Byte → List Symbol × Accumulator
  | a, [] => ([], a)
  | a, b :: bs =>
    let r := packStep a b
    let q := packBytes r.2 bs
    (r.1 ++ q.1, q.2)

/-- PACK_FLUSH (40 R132): the symbol of the 1 to 10 leftover bits, zero-padded on the right, if there are any. The
accumulator is then cleared. -/
def packFlush (a : Accumulator) : List Symbol :=
  if 0 < a.cnt.toNat then [BitVec.ofNat 11 ((a.acc.toNat <<< (11 - a.cnt.toNat)) &&& 0x7FF)] else []

/-- `pack` (40 R133). -/
def pack (bs : List Byte) : List Symbol :=
  let r := packBytes Accumulator.empty bs
  r.1 ++ packFlush r.2

/-- UNPACK_STEP (41 R161): the bytes emitted and the accumulator left. -/
def unpackStep (a : Accumulator) (v : Symbol) : List Byte × Accumulator :=
  let r := a.push 11 8 v.toNat
  (r.1.map (BitVec.ofNat 8), r.2)

/-- UNPACK_STEP for every symbol in increasing index order (41 R163). -/
def unpackSymbols : Accumulator → List Symbol → List Byte × Accumulator
  | a, [] => ([], a)
  | a, v :: vs =>
    let r := unpackStep a v
    let q := unpackSymbols r.2 vs
    (r.1 ++ q.1, q.2)

/-- What `unpack` returns: U, pad_clean and pad_count (41 R163). -/
structure Unpacked where
  bytes : List Byte
  padClean : Bool
  padCount : BitVec 3
  deriving DecidableEq, Repr

/-- `unpack` with UNPACK_FINISH (41 R162, R163): the leftover bits are never emitted. -/
def unpack (vs : List Symbol) : Unpacked :=
  let r := unpackSymbols Accumulator.empty vs
  ⟨r.1, r.2.padClean, r.2.padCount⟩

end Sys2Proof.Machine
end

