-- ==== Sys2Proof/Machine/Operands.lean ====
section
/-! DEFINITION. The operand forms of the commands: IBUF entries as bytes and as tokens, OBUF entries as symbols and as
bytes (spec 30 R96 to R98), and the engine's reads of IBUF[0..IN_LEN) (20 R68). -/

namespace Sys2Proof.Machine

/-- Bits 7:0, the byte of an entry read as a byte; bits 11:8 are ignored (30 R96). -/
def entryByte (e : InEntry) : Byte := e.extractLsb' 0 8

/-- SYM, bits 10:0 of an entry read as a token (30 R97). -/
def entrySym (e : InEntry) : Symbol := e.extractLsb' 0 11

/-- ABSENT, bit 11 of an entry read as a token (30 R97). -/
def entryAbsent (e : InEntry) : Bool := e.getLsbD 11

/-- A symbol as an OBUF entry, bits 15:11 zero (30 R98, 10 R47). -/
def symbolEntry (v : Symbol) : OutEntry := v.zeroExtend 16

/-- A byte as an OBUF entry, bits 15:8 zero (30 R98, 10 R47). -/
def byteEntry (b : Byte) : OutEntry := b.zeroExtend 16

/-- The `n` entries of `m` from index `i` on, or the index of the first that holds no value (20 R66). -/
def readEntries (m : Memory) : (i n : Nat) → Except Nat (List InEntry)
  | _, 0 => .ok []
  | i, n + 1 =>
    match m.read i with
    | none => .error i
    | some e =>
      match readEntries m (i + 1) n with
      | .error j => .error j
      | .ok es => .ok (e :: es)

/-- The command's input IBUF[0..IN_LEN), or the index of the first entry without a value (20 R68, R66). -/
def State.input (s : State) : Except Nat (List InEntry) := readEntries s.ibuf 0 s.inLen.toNat

/-- A command over its whole input (00 R7, 70 R340): read IBUF[0..IN_LEN) and complete with the outcome `f` gives. An
entry the host has not written since reset is the model's fault (20 R66, 93 U3; entry 6). -/
def withInput (s : State) (f : List InEntry → CmdOutcome) : Host.Outcome State Fault Refusal :=
  match s.input with
  | .error i => .fault (.unwrittenInput i)
  | .ok es => .next (s.finish (f es))

/-- A command over bytes: its input read as bytes (30 R96). -/
def withBytes (s : State) (f : List Byte → CmdOutcome) : Host.Outcome State Fault Refusal :=
  withInput s fun es => f (es.map entryByte)

end Sys2Proof.Machine
end

