-- ==== Sys2Proof/Machine/Framer.lean ====
section
/-! DEFINITION. The frame marshaller: the varint, the wrap, the unwrap and the framed mode's reading of it (spec 42
R190 to R203, 30 R100 to R103). -/

namespace Sys2Proof.Machine

/-- The loop of 42 R190: 7 data bits a byte, least significant first, continuation bit set on all but the last.
`fuel` bounds the passes; `len` of them are enough. -/
def vencLoop : (fuel len : Nat) → List Byte
  | 0, len => [BitVec.ofNat 8 len]
  | fuel + 1, len =>
    if 0x80 ≤ len then BitVec.ofNat 8 ((len &&& 0x7F) ||| 0x80) :: vencLoop fuel (len >>> 7)
    else [BitVec.ofNat 8 len]

/-- `venc`, the minimal varint of a length (42 R190; entry 13). -/
def venc (len : Nat) : List Byte := vencLoop len len

/-- The loop of 42 R191 from byte `i` on, with the value `x` read so far and the shift `sh`. `none` is UNREADABLE. -/
def vdecLoop : List Byte → (i x sh : Nat) → Option (Nat × Nat)
  | [], _, _, _ => none
  | b :: bs, i, x, sh =>
    if i = Config.varintMaxBytes then none
    else if b.toNat < 0x80 then
      if i = Config.varintMaxBytes - 1 ∧ 1 < b.toNat then none
      else some (x ||| (b.toNat <<< sh), i + 1)
    else vdecLoop bs (i + 1) (x ||| ((b.toNat &&& 0x7F) <<< sh)) (sh + 7)

/-- `vdec`: the value L and the number of bytes read, or UNREADABLE (42 R191; entry 13). -/
def vdec (bs : List Byte) : Option (Nat × Nat) := vdecLoop bs 0 0 0

end Sys2Proof.Machine

namespace Sys2Proof

/-- MAGIC as a byte sequence, `MAGIC[0]` first (00 R8). -/
def Params.magicBytes (p : Params) : List Byte :=
  [p.magic[0], p.magic[1], p.magic[2], p.magic[3], p.magic[4], p.magic[5], p.magic[6], p.magic[7]]

end Sys2Proof

namespace Sys2Proof.Machine

/-- `magic_match` (42 R192): fewer than 8 bytes never match. -/
def magicMatch (p : Params) (u : List Byte) : Bool :=
  decide (Config.magicLen ≤ u.length) && u.take Config.magicLen == p.magicBytes

/-- `wrap` (42 R193): the magic, the varint of the length, the payload. -/
def wrap (p : Params) (bs : List Byte) : List Byte := p.magicBytes ++ venc bs.length ++ bs

/-- `hdr` = 8 + n for the frame that `wrap` builds (30 R102). -/
def wrapHdrLen (len : Nat) : Nat := Config.magicLen + (venc len).length

/-- The four results of an unwrap (42 R194). -/
inductive FrameResult where
  /-- FR_OK(P, L, hdr). -/
  | ok (payload : List Byte) (len hdr : Nat)
  /-- FR_BAD_HEADER. -/
  | badHeader
  /-- FR_ABSURD(L, hdr). -/
  | absurd (len hdr : Nat)
  /-- FR_TRUNC(Q, L, hdr). -/
  | truncated (available : List Byte) (len hdr : Nat)
  deriving DecidableEq, Repr

/-- `unwrap`, its five steps in order: magic, length field, ceiling, truncation, success (42 R195 to R200). -/
def unwrap (p : Params) (maxLen : Nat) (u : List Byte) : FrameResult :=
  if !magicMatch p u then .badHeader
  else
    match vdec (u.drop Config.magicLen) with
    | none => .badHeader
    | some (len, n) =>
      let hdr := Config.magicLen + n
      if maxLen < len then .absurd len hdr
      else if u.length - hdr < len then .truncated (u.drop hdr) len hdr
      else .ok ((u.drop hdr).take len) len hdr

/-- The outcome fields of a frame whose varint was read or written: DECL_LEN and HDR_LEN (10 R36, R37). -/
def CmdOutcome.withFrame (o : CmdOutcome) (len hdr : Nat) : CmdOutcome :=
  { o with declLen := BitVec.ofNat 64 len, hdrLen := BitVec.ofNat 32 hdr }

/-- A truncated frame's outcome where partial results are allowed: the available bytes, with the signal (42 R203,
43 R246 row 5). -/
def partialOutcome (base : CmdOutcome) (available : List Byte) (len hdr : Nat) : CmdOutcome :=
  { base.withFrame len hdr with
    code := .truncated, result := .partialAccept, data := available.map byteEntry, framed := true }

/-- A truncated frame's outcome that fails with no data (42 R203, 43 R247). -/
def truncatedOutcome (base : CmdOutcome) (len hdr : Nat) : CmdOutcome :=
  { base.withFrame len hdr with code := .truncated, result := .hardFail, framed := true }

/-- The outcome of a frame that passed every check (42 R203, 43 R246 row 2). -/
def frameOkOutcome (base : CmdOutcome) (payload : List Byte) (len hdr : Nat) : CmdOutcome :=
  { base.withFrame len hdr with data := payload.map byteEntry, framed := true }

/-- `framed_outcome` (42 R203), built on `base`: `O0` for FRAME.UNWRAP, `Ob` with the padding signal for
DECODE.FRAMED (43 R244). -/
def framedOutcome (c : Ctrl) (base : CmdOutcome) : FrameResult → CmdOutcome
  | .ok payload len hdr => frameOkOutcome base payload len hdr
  | .badHeader => { base with code := .badHeader, result := .hardFail }
  | .absurd len hdr => { base.withFrame len hdr with code := .absurdLength, result := .hardFail }
  | .truncated available len hdr =>
    if c.allowPartial then partialOutcome base available len hdr else truncatedOutcome base len hdr

/-- FRAME.WRAP (42 R202): build a frame as bytes, without packing. MAX_LEN is not checked. -/
def execFrameWrap (s : State) : Host.Outcome State Fault Refusal :=
  withBytes s fun bs =>
    { outcome0.withFrame bs.length (wrapHdrLen bs.length) with
      data := (wrap s.params bs).map byteEntry, framed := true }

/-- FRAME.UNWRAP (42 R204): check and strip a frame given as bytes. -/
def execFrameUnwrap (s : State) : Host.Outcome State Fault Refusal :=
  withBytes s fun bs => framedOutcome s.ctrl outcome0 (unwrap s.params s.maxLen.toNat bs)

end Sys2Proof.Machine
end

