-- ==== Sys2Proof/Machine/Dispatcher.lean ====
section
/-! DEFINITION. The decoder dispatcher: the common prologue and the three DECODE commands (spec 43 R240 to R249). -/

namespace Sys2Proof.Machine

/-- `Ob`, the outcome every later outcome of a DECODE is built from (43 R241). -/
def unpackedOutcome (u : Unpacked) : CmdOutcome :=
  { outcome0 with unpacked := true, padClean := u.padClean, padCount := u.padCount }

/-- The whole unpacked bitstream returned without a defect (43 R243, R245). -/
def rawOutcome (u : Unpacked) : CmdOutcome :=
  { unpackedOutcome u with data := u.bytes.map byteEntry }

/-- The strict padding defect: the bytes produced so far, with the signal (43 R242, 90 C6). -/
def badPaddingOutcome (u : Unpacked) : CmdOutcome :=
  { rawOutcome u with code := .badPadding, result := .hardFail }

/-- The prologue of every DECODE on its tokens: the absent-token check, which finds the least absent index, one unpack
of the whole input, the strict padding check (43 R240 to R242). `f` gives the outcome where none of them ends the
command. -/
def tokensOutcome (c : Ctrl) (f : Unpacked → CmdOutcome) (es : List InEntry) : CmdOutcome :=
  match es.findIdx? entryAbsent with
  | some p => badWordOutcome p
  | none =>
    let u := unpack (es.map entrySym)
    if badPadding c u.padClean then badPaddingOutcome u else f u

/-- A command over tokens (30 R97). It reads its whole input, as every command does, also where a token is absent
(00 R7, 70 R340; entry 6). -/
def withTokens (s : State) (f : Unpacked → CmdOutcome) : Host.Outcome State Fault Refusal :=
  withInput s (tokensOutcome s.ctrl f)

/-- A defect that falls back to the whole unpacked bitstream (43 R246 rows 3 and 4, R247). -/
def fallbackOutcome (u : Unpacked) (c : Code) : CmdOutcome :=
  { rawOutcome u with code := c, result := .fallbackRaw }

/-- `auto_trunc_nopartial` (43 R247). -/
def autoTruncOutcome (p : Params) (u : Unpacked) (len hdr : Nat) : CmdOutcome :=
  match p.autoTrunc with
  | .hardFail => truncatedOutcome (unpackedOutcome u) len hdr
  | .fallbackRaw => (fallbackOutcome u .truncated).withFrame len hdr

/-- The ordered decision table of auto mode (43 R245, R246): a row applies only where no earlier one does. -/
def autoOutcome (p : Params) (c : Ctrl) (maxLen : Nat) (u : Unpacked) : CmdOutcome :=
  if !magicMatch p u.bytes then rawOutcome u
  else
    match unwrap p maxLen u.bytes with
    | .ok payload len hdr => frameOkOutcome (unpackedOutcome u) payload len hdr
    | .badHeader => fallbackOutcome u .badHeader
    | .absurd len hdr => (fallbackOutcome u .absurdLength).withFrame len hdr
    | .truncated available len hdr =>
      if c.allowPartial then partialOutcome (unpackedOutcome u) available len hdr else autoTruncOutcome p u len hdr

/-- DECODE.RAW (43 R243): unpack the symbols and return every byte. -/
def execDecodeRaw (s : State) : Host.Outcome State Fault Refusal :=
  withTokens s rawOutcome

/-- DECODE.FRAMED (43 R244): unpack, then require and strip a frame. -/
def execDecodeFramed (s : State) : Host.Outcome State Fault Refusal :=
  withTokens s fun u => framedOutcome s.ctrl (unpackedOutcome u) (unwrap s.params s.maxLen.toNat u.bytes)

/-- DECODE.AUTO (43 R246): unpack, detect a frame, and decide by the ordered table. -/
def execDecodeAuto (s : State) : Host.Outcome State Fault Refusal :=
  withTokens s (autoOutcome s.params s.ctrl s.maxLen.toNat)

end Sys2Proof.Machine
end

