-- ==== Sys2Proof/Machine/Encoder.lean ====
section
/-! DEFINITION. The ENCODE commands (spec 40 R137, 42 R201). -/

namespace Sys2Proof.Machine

/-- ENCODE.RAW (40 R137): pack the input bytes without a frame. -/
def execEncodeRaw (s : State) : Host.Outcome State Fault Refusal :=
  withBytes s fun bs => { outcome0 with data := (pack bs).map symbolEntry }

/-- ENCODE.FRAMED (42 R201): wrap the input bytes in a frame and pack the frame. MAX_LEN is not checked (92 D26). -/
def execEncodeFramed (s : State) : Host.Outcome State Fault Refusal :=
  withBytes s fun bs =>
    { outcome0.withFrame bs.length (wrapHdrLen bs.length) with
      data := (pack (wrap s.params bs)).map symbolEntry, framed := true }

end Sys2Proof.Machine
end

