-- ==== Sys2Proof/Machine/Dispatch.lean ====
section
/-! DEFINITION. The dispatch of a command to its meaning: one arm per constructor of Instr (spec 30 R93). -/

namespace Sys2Proof.Machine

def exec (i : Instr) (s : State) : Host.Outcome State Fault Refusal :=
  match i with
  | .encodeRaw => Sys2Proof.Machine.execEncodeRaw s
  | .encodeFramed => Sys2Proof.Machine.execEncodeFramed s
  | .decodeRaw => Sys2Proof.Machine.execDecodeRaw s
  | .decodeFramed => Sys2Proof.Machine.execDecodeFramed s
  | .decodeAuto => Sys2Proof.Machine.execDecodeAuto s
  | .frameWrap => Sys2Proof.Machine.execFrameWrap s
  | .frameUnwrap => Sys2Proof.Machine.execFrameUnwrap s

end Sys2Proof.Machine
end

