-- ==== Sys2Proof/Machine/HostBus.lean ====
section
/-! DEFINITION. The host interface: the address map (spec 20 R60 to R65), what a host read and a host write do
(10 R20 to R42, 20 R66, R67, 70 R335 to R337), and the host-program syntax (30 R104, R105). -/

namespace Sys2Proof.Machine

/-- The sixteen registers of 20 R61. -/
inductive Reg where
  | cmd
  | status
  | ctrl
  | maxLenLo
  | maxLenHi
  | inLen
  | outLen
  | declLenLo
  | declLenHi
  | hdrLen
  | badwordPos
  | lastCmd
  | magicLo
  | magicHi
  | ibufDepth
  | obufDepth
  deriving DecidableEq, Repr

/-- The offset of each register (20 R61). -/
def Reg.offset : Reg → Nat
  | .cmd => 0x000
  | .status => 0x004
  | .ctrl => 0x008
  | .maxLenLo => 0x00C
  | .maxLenHi => 0x010
  | .inLen => 0x014
  | .outLen => 0x018
  | .declLenLo => 0x01C
  | .declLenHi => 0x020
  | .hdrLen => 0x024
  | .badwordPos => 0x028
  | .lastCmd => 0x02C
  | .magicLo => 0x030
  | .magicHi => 0x034
  | .ibufDepth => 0x038
  | .obufDepth => 0x03C

/-- Every register, in the order of 20 R61. -/
def Reg.all : List Reg :=
  [.cmd, .status, .ctrl, .maxLenLo, .maxLenHi, .inLen, .outLen, .declLenLo, .declLenHi, .hdrLen, .badwordPos, .lastCmd,
    .magicLo, .magicHi, .ibufDepth, .obufDepth]

/-- The offset of the IBUF window (20 R62). -/
def ibufBase : Nat := 0x40000000

/-- The offset of the OBUF window (20 R63). -/
def obufBase : Nat := 0x80000000

/-- What an offset names. -/
inductive Target where
  | reg (r : Reg)
  | ibuf (i : Nat)
  | obuf (i : Nat)
  /-- Reserved: reads 0, ignores writes (20 R65). -/
  | reserved
  deriving DecidableEq, Repr

/-- The address map at an offset that is a multiple of 4 (20 R60 to R65). -/
def targetOf (p : Params) (offset : Word) : Target :=
  let o := offset.toNat
  if o < ibufBase then
    match Reg.all.find? (fun r => r.offset == o) with
    | some r => .reg r
    | none => .reserved
  else if o < obufBase then
    if (o - ibufBase) / 4 < p.ibufDepth then .ibuf ((o - ibufBase) / 4) else .reserved
  else if (o - obufBase) / 4 < p.obufDepth then .obuf ((o - obufBase) / 4) else .reserved

/-- The offset a bus address names in the window of 2^32 bytes at BLOCK_BASE; an address outside the window is no
access to this block (20 R60; entry 3). -/
def offsetOfBus (busAddress : Nat) : Option Word :=
  if Config.blockBase ≤ busAddress ∧ busAddress - Config.blockBase < 2 ^ 32 then
    some (BitVec.ofNat 32 (busAddress - Config.blockBase))
  else none

/-- MAGIC_LO and MAGIC_HI: four magic bytes, the first in the least significant place (10 R40). -/
def magicWord (b0 b1 b2 b3 : Byte) : Word := (b3 ++ b2 ++ b1 ++ b0).setWidth 32

/-- A host read of a result register: its value while idle, an arbitrary value while BUSY (70 R335). -/
def State.readResult (s : State) (v : Word) : Word × State := if s.busy then s.draw else (v, s)

/-- A host read of a register (10 R21 to R41, 70 R335). -/
def State.readReg (s : State) : Reg → Word × State
  | .cmd => (0#32, s)
  | .status => if s.busy then (s.busyStatusWord s.draw.1, s.draw.2) else (s.statusWord, s)
  | .ctrl => (s.ctrl.word, s)
  | .maxLenLo => (s.maxLen.extractLsb' 0 32, s)
  | .maxLenHi => (s.maxLen.extractLsb' 32 32, s)
  | .inLen => (s.inLen, s)
  | .outLen => s.readResult s.outLen
  | .declLenLo => s.readResult (s.declLen.extractLsb' 0 32)
  | .declLenHi => s.readResult (s.declLen.extractLsb' 32 32)
  | .hdrLen => s.readResult s.hdrLen
  | .badwordPos => s.readResult s.badwordPos
  | .lastCmd => (s.lastCmd, s)
  | .magicLo => (magicWord s.params.magic[0] s.params.magic[1] s.params.magic[2] s.params.magic[3], s)
  | .magicHi => (magicWord s.params.magic[4] s.params.magic[5] s.params.magic[6] s.params.magic[7], s)
  | .ibufDepth => (BitVec.ofNat 32 s.params.ibufDepth, s)
  | .obufDepth => (BitVec.ofNat 32 s.params.obufDepth, s)

/-- A host read of IBUF entry `i` (20 R66): the stored 12 bits, or 12 arbitrary bits where nothing has been written
since reset (93 U6; entry 7). -/
def State.readIbuf (s : State) (i : Nat) : Word × State :=
  match s.ibuf.read i with
  | some e => (e.zeroExtend 32, s)
  | none => ((s.draw.1.extractLsb' 0 12).zeroExtend 32, s.draw.2)

/-- A host read of OBUF entry `i` (20 R67): the stored 16 bits below OUT_LEN, 16 arbitrary bits at or above it
(93 U4), an arbitrary value while BUSY (70 R335; entry 8). -/
def State.readObuf (s : State) (i : Nat) : Word × State :=
  if s.busy then s.draw
  else
    match if i < s.outLen.toNat then s.obuf[i]? else none with
    | some e => (e.zeroExtend 32, s)
    | none => ((s.draw.1.extractLsb' 0 16).zeroExtend 32, s.draw.2)

/-- A host read at an offset: the value returned and the state after it. A read has no side effect (20 R74); only the
model's count of drawn values may rise. -/
def State.hostRead (s : State) (offset : Word) : Word × State :=
  match targetOf s.params offset with
  | .reg r => s.readReg r
  | .ibuf i => s.readIbuf i
  | .obuf i => s.readObuf i
  | .reserved => (0#32, s)

/-- A host write that BUSY drops: the target keeps its value and IGNORED_WRITE becomes 1 (10 R25, 70 R336). While
idle the write does `f`. -/
def State.unlessBusy (s : State) (f : State → State) : State :=
  if s.busy then { s with status := { s.status with ignoredWrite := true } } else f s

/-- A host write of `v` to a register (10 R20 to R42). Writes to read-only registers are ignored without setting
IGNORED_WRITE. -/
def State.writeReg (s : State) (r : Reg) (v : Word) : State :=
  match r with
  | .cmd => s.unlessBusy fun s => s.issue v
  | .ctrl => s.unlessBusy fun s => { s with ctrl := Ctrl.ofWord v }
  | .maxLenLo => s.unlessBusy fun s => { s with maxLen := (s.maxLen.extractLsb' 32 32 ++ v).setWidth 64 }
  | .maxLenHi => s.unlessBusy fun s => { s with maxLen := (v ++ s.maxLen.extractLsb' 0 32).setWidth 64 }
  | .inLen => s.unlessBusy fun s => { s with inLen := v }
  | .status => s
  | .outLen => s
  | .declLenLo => s
  | .declLenHi => s
  | .hdrLen => s
  | .badwordPos => s
  | .lastCmd => s
  | .magicLo => s
  | .magicHi => s
  | .ibufDepth => s
  | .obufDepth => s

/-- A host write of `v` at an offset. An IBUF entry keeps bits 11:0 of it (20 R66); OBUF and reserved places ignore it
(20 R65, R67). -/
def State.hostWrite (s : State) (offset v : Word) : State :=
  match targetOf s.params offset with
  | .reg r => s.writeReg r v
  | .ibuf i => s.unlessBusy fun s => { s with ibuf := s.ibuf.write i (v.extractLsb' 0 12) }
  | .obuf _ => s
  | .reserved => s

/-- One event of the outside world. An access outside the interface is refused (20 R64, 93 U8; entry 15). -/
def State.performEvent (s : State) (e : HostEvent) : Host.Outcome State Fault Refusal :=
  match e with
  | .write width offset v =>
    if e.wellFormed then .next (s.hostWrite offset v) else .refused (.outsideInterface width offset)
  | .read width offset =>
    if e.wellFormed then
      let r := s.hostRead offset
      .next { r.2 with replies := r.2.replies ++ [r.1] }
    else .refused (.outsideInterface width offset)
  | .reset => .next s.applyReset

/-- `WR <REG>, <value>` (30 R104). -/
def wr (r : Reg) (v : Word) : HostEvent := .write 32 (BitVec.ofNat 32 r.offset) v

/-- `WRI <i>, <value>` (30 R104). -/
def wri (i : Nat) (v : Word) : HostEvent := .write 32 (BitVec.ofNat 32 (ibufBase + 4 * i)) v

/-- `RD <REG>` (30 R104). -/
def rd (r : Reg) : HostEvent := .read 32 (BitVec.ofNat 32 r.offset)

/-- `RDO <i>` (30 R104). -/
def rdo (i : Nat) : HostEvent := .read 32 (BitVec.ofNat 32 (obufBase + 4 * i))

/-- The `WRI` lines of LOADB and LOADS, from entry `i` on (30 R105). -/
def wriFrom : (i : Nat) → List Word → List HostEvent
  | _, [] => []
  | i, v :: vs => wri i v :: wriFrom (i + 1) vs

/-- `LOADB` and `LOADS`, one expansion: the entries, then IN_LEN (30 R105). -/
def load (vs : List Word) : List HostEvent := wriFrom 0 vs ++ [wr .inLen (BitVec.ofNat 32 vs.length)]

/-- `RUN <MNEM>` whose WAIT loop reads STATUS `polls` times (30 R105). -/
def run (i : Instr) (polls : Nat) : List HostEvent := wr .cmd (encode i) :: List.replicate polls (rd .status)

end Sys2Proof.Machine
end

