-- ==== Sys2Proof/Machine/Fetch.lean ====
section
/-! DEFINITION. Where the engine takes its command from. The block fetches no instructions (spec 20 R78): the command
is the word CUR the sequencer holds while BUSY (10 R44, R45). -/

namespace Sys2Proof.Machine

/-- CUR, when it is the engine's turn: the block is BUSY and no host access comes before completion (entry 4). -/
def State.fetch (s : State) : Option Word :=
  match s.phase, s.pending with
  | .idle, _ => none
  | .busy, [] => some s.cur
  | .busy, _ :: _ => if s.wait = 0 then some s.cur else none

/-- The host's turn: the oldest event is taken from `pending`; while BUSY it is one of the `wait` accesses the block
still serves before completion (entry 4). With no event the block holds its state (60 R314). -/
def State.serveHost (s : State) : Host.Outcome State Fault Refusal :=
  match s.pending with
  | [] => .next s
  | e :: es =>
    match s.phase with
    | .idle => { s with pending := es }.performEvent e
    | .busy => { s with pending := es, wait := s.wait - 1 }.performEvent e

/-- The state in which the engine's next command is `w` and it is the engine's turn. -/
def State.placeCommand (s : State) (w : Word) : State :=
  { s with phase := .busy, cur := w, inIndex := 0, outIndex := 0, wait := 0 }

end Sys2Proof.Machine
end

