-- ==== Sys2Proof/Machine/Step.lean ====
section
/-! DEFINITION. One step of the block: the engine runs its command to completion (spec 70 R343), or the oldest host
event is served (20 R75). -/

namespace Sys2Proof.Machine

/-- One step. In the engine's turn the command in CUR is decoded and run; a word that is no command, which issue never
lets into CUR (10 R45), is never executed as one and completes as ILLEGAL_COMMAND (93 U9; entry 10). -/
def step (s : State) : Host.Outcome State Fault Refusal :=
  match s.fetch with
  | none => s.serveHost
  | some w =>
    match decode w with
    | .ok i => exec i s
    | .error _ => .next (s.finish illegalOutcome)

/-- `s` with the command whose low `nbits` bits are `w` and whose other bits are 0 in CUR, in the engine's turn, so that
the next step runs it: the host's CMD write and its issue, done (entry 5). -/
def State.withFetchWord (s : State) (nbits w : Nat) : State := s.placeCommand (BitVec.ofNat 32 (w % 2 ^ nbits))

end Sys2Proof.Machine
end

