-- ==== Sys2Proof/Safety.lean ====
section
/-! DEFINITION. The terms the statements use: when a command runs to a result, what its input and its result are, what
it leaves unchanged, the bit streams of spec 20 R69 and R70, the decision chains of 42 R200, R203 and 43 R246, and the
invariants every step keeps. -/

namespace Sys2Proof.Machine

/-- Every input entry has been written since reset (20 R66, 70 R340): no command faults. -/
abbrev State.inputWritten (s : State) : Prop := ∀ i < s.inLen.toNat, (s.ibuf.read i).isSome = true

/-- The conditions under which an issued command runs: the parameters meet their bounds, the input fits the buffer
(10 R45) and has been written (70 R340). -/
abbrev State.ready (s : State) : Prop :=
  s.params.wf ∧ s.inLen.toNat ≤ s.params.ibufDepth ∧ s.inputWritten

/-- Input entry `i` as a number. -/
def State.inNat (s : State) (i : Nat) : Nat := ((s.ibuf.read i).getD 0#12).toNat

/-- The input as bytes: bits 7:0 of each entry (30 R96). -/
def State.inputBytes (s : State) : List Byte :=
  (List.range s.inLen.toNat).map fun i => BitVec.ofNat 8 (s.inNat i)

/-- The input as symbols: bits 10:0 of each entry (30 R97). -/
def State.inputSymbols (s : State) : List Symbol :=
  (List.range s.inLen.toNat).map fun i => BitVec.ofNat 11 (s.inNat i)

/-- No input entry has bit 11, ABSENT, set (30 R97). -/
abbrev State.noneAbsent (s : State) : Prop := ∀ i < s.inLen.toNat, s.inNat i < 2048

/-- Entry `p` is the first absent one, and every entry up to it has been written (43 R240). -/
abbrev State.firstAbsent (s : State) (p : Nat) : Prop :=
  p < s.inLen.toNat ∧ (∀ i ≤ p, (s.ibuf.read i).isSome = true) ∧ 2048 ≤ s.inNat p ∧ ∀ i < p, s.inNat i < 2048

/-- Entry `i` is the first input entry without a value (20 R66). -/
abbrev State.firstUnwritten (s : State) (i : Nat) : Prop :=
  i < s.inLen.toNat ∧ s.ibuf.read i = none ∧ ∀ j < i, (s.ibuf.read j).isSome = true

/-- The outcome the result registers and OBUF hold (10 R46, R47). -/
def State.outcome (t : State) : CmdOutcome where
  code := t.status.code
  result := t.status.result
  framed := t.status.framed
  unpacked := t.status.unpacked
  padClean := t.status.padClean
  padCount := t.status.padCount
  data := t.obuf
  declLen := t.declLen
  hdrLen := t.hdrLen
  badwordPos := t.badwordPos

/-- What no command changes (60 R302, 10 R25, R39, R40, R41), and the model's own fields but for its count of draws
(entry 9). -/
structure SameConfig (s t : State) : Prop where
  params : t.params = s.params
  ctrl : t.ctrl = s.ctrl
  maxLen : t.maxLen = s.maxLen
  inLen : t.inLen = s.inLen
  lastCmd : t.lastCmd = s.lastCmd
  ignoredWrite : t.status.ignoredWrite = s.status.ignoredWrite
  ibuf : ∀ i, t.ibuf.read i = s.ibuf.read i
  ibufEntries : t.ibuf = s.ibuf
  wait : t.wait = s.wait
  pending : t.pending = s.pending
  replies : t.replies = s.replies

/-- What completion leaves (10 R47): the block idle, DONE set, the accumulator cleared. -/
structure Completed (t : State) : Prop where
  idle : t.phase = .idle
  done : t.status.done = true
  accumulator : t.accumulator = ⟨0#18, 0#5⟩

/-- The command run in `s` completed in `t` with the outcome `o` and nothing else changed. -/
structure CompletedWith (s t : State) (o : CmdOutcome) : Prop where
  same : SameConfig s t
  completed : Completed t
  outcome : t.outcome = o
  outLen : t.outLen.toNat = o.data.length

/-- Stream bit `k` of a byte sequence, 0 beyond its end (20 R69, 40 R135). -/
def byteBit (bs : List Byte) (k : Nat) : Bool := (bs.getD (k / 8) 0#8).getLsbD (7 - k % 8)

/-- Stream bit `k` of a symbol sequence (20 R70, 41 R164). -/
def symbolBit (vs : List Symbol) (k : Nat) : Bool := (vs.getD (k / 11) 0#11).getLsbD (10 - k % 11)

/-- The count law and the closed form of the packer (40 R134, R135). -/
def IsPacking (bs : List Byte) (vs : List Symbol) : Prop :=
  vs.length = (8 * bs.length + 10) / 11 ∧ ∀ k < 11 * vs.length, symbolBit vs k = byteBit bs k

/-- The count law, the closed form and the padding signal of the unpacker (41 R162 to R164). -/
def IsUnpacking (vs : List Symbol) (u : Unpacked) : Prop :=
  u.bytes.length = 11 * vs.length / 8 ∧
  (∀ k < 8 * u.bytes.length, byteBit u.bytes k = symbolBit vs k) ∧
  u.padCount.toNat = 11 * vs.length % 8 ∧
  (u.padClean = true ↔ ∀ k < 11 * vs.length, 8 * u.bytes.length ≤ k → symbolBit vs k = false)

/-- A byte sequence as OBUF entries (30 R98). -/
def byteData (bs : List Byte) : List OutEntry := bs.map (BitVec.setWidth 16)

/-- A symbol sequence as OBUF entries (30 R98). -/
def symbolData (vs : List Symbol) : List OutEntry := vs.map (BitVec.setWidth 16)

/-- The host has copied the OBUF entries `es` to IBUF[0..) and written their number to IN_LEN (70 R341); read as tokens
they have ABSENT = 0. -/
abbrev State.holdsEntries (u : State) (es : List OutEntry) : Prop :=
  u.inLen.toNat = es.length ∧ ∀ i < es.length, u.inNat i = (es.getD i 0#16).toNat

/-- `Ob`, the outcome every outcome of a DECODE that unpacked is built from (43 R241). -/
def decodeBase (u : Unpacked) : CmdOutcome :=
  { outcome0 with unpacked := true, padClean := u.padClean, padCount := u.padCount }

/-- The outcome of strict padding over leftover bits that are not all zero (43 R242). -/
def strictPaddingOutcome (u : Unpacked) : CmdOutcome :=
  { decodeBase u with code := .badPadding, result := .hardFail, data := byteData u.bytes }

/-- The frame of `bs`: magic, varint of the length, payload (30 R100, 42 R193). -/
def frameOf (p : Params) (bs : List Byte) : List Byte := p.magicBytes ++ venc bs.length ++ bs

/-- The chain of 42 R195 to R199 and R203 on the bytes `u`, for an outcome built on `base`. -/
structure FramedDecision (s : State) (base : CmdOutcome) (u : List Byte) (o : CmdOutcome) : Prop where
  noMagic : u.take 8 ≠ s.params.magicBytes → o = { base with code := .badHeader, result := .hardFail }
  noVarint : u.take 8 = s.params.magicBytes → vdec (u.drop 8) = none →
    o = { base with code := .badHeader, result := .hardFail }
  absurd : ∀ len n, u.take 8 = s.params.magicBytes → vdec (u.drop 8) = some (len, n) → s.maxLen.toNat < len →
    o = { base with
      code := .absurdLength, result := .hardFail
      declLen := BitVec.ofNat 64 len, hdrLen := BitVec.ofNat 32 (8 + n) }
  truncatedPartial : ∀ len n, u.take 8 = s.params.magicBytes → vdec (u.drop 8) = some (len, n) →
    len ≤ s.maxLen.toNat → u.length - (8 + n) < len → s.ctrl.allowPartial = true →
    o = { base with
      code := .truncated, result := .partialAccept, framed := true, data := byteData (u.drop (8 + n))
      declLen := BitVec.ofNat 64 len, hdrLen := BitVec.ofNat 32 (8 + n) }
  truncatedFail : ∀ len n, u.take 8 = s.params.magicBytes → vdec (u.drop 8) = some (len, n) →
    len ≤ s.maxLen.toNat → u.length - (8 + n) < len → s.ctrl.allowPartial = false →
    o = { base with
      code := .truncated, result := .hardFail, framed := true
      declLen := BitVec.ofNat 64 len, hdrLen := BitVec.ofNat 32 (8 + n) }
  accept : ∀ len n, u.take 8 = s.params.magicBytes → vdec (u.drop 8) = some (len, n) →
    len ≤ s.maxLen.toNat → len ≤ u.length - (8 + n) →
    o = { base with
      framed := true, data := byteData ((u.drop (8 + n)).take len)
      declLen := BitVec.ofNat 64 len, hdrLen := BitVec.ofNat 32 (8 + n) }

/-- The six rows of 43 R246 with R245 and R247, on the bytes `u`, for an outcome built on `base` (`Ob`). -/
structure AutoDecision (s : State) (base : CmdOutcome) (u : List Byte) (o : CmdOutcome) : Prop where
  row1 : u.take 8 ≠ s.params.magicBytes → o = { base with data := byteData u }
  row2 : ∀ len n, u.take 8 = s.params.magicBytes → vdec (u.drop 8) = some (len, n) →
    len ≤ s.maxLen.toNat → len ≤ u.length - (8 + n) →
    o = { base with
      framed := true, data := byteData ((u.drop (8 + n)).take len)
      declLen := BitVec.ofNat 64 len, hdrLen := BitVec.ofNat 32 (8 + n) }
  row3 : u.take 8 = s.params.magicBytes → vdec (u.drop 8) = none →
    o = { base with code := .badHeader, result := .fallbackRaw, data := byteData u }
  row4 : ∀ len n, u.take 8 = s.params.magicBytes → vdec (u.drop 8) = some (len, n) → s.maxLen.toNat < len →
    o = { base with
      code := .absurdLength, result := .fallbackRaw, data := byteData u
      declLen := BitVec.ofNat 64 len, hdrLen := BitVec.ofNat 32 (8 + n) }
  row5 : ∀ len n, u.take 8 = s.params.magicBytes → vdec (u.drop 8) = some (len, n) →
    len ≤ s.maxLen.toNat → u.length - (8 + n) < len → s.ctrl.allowPartial = true →
    o = { base with
      code := .truncated, result := .partialAccept, framed := true, data := byteData (u.drop (8 + n))
      declLen := BitVec.ofNat 64 len, hdrLen := BitVec.ofNat 32 (8 + n) }
  row6HardFail : ∀ len n, u.take 8 = s.params.magicBytes → vdec (u.drop 8) = some (len, n) →
    len ≤ s.maxLen.toNat → u.length - (8 + n) < len → s.ctrl.allowPartial = false →
    s.params.autoTrunc = .hardFail →
    o = { base with
      code := .truncated, result := .hardFail, framed := true
      declLen := BitVec.ofNat 64 len, hdrLen := BitVec.ofNat 32 (8 + n) }
  row6Fallback : ∀ len n, u.take 8 = s.params.magicBytes → vdec (u.drop 8) = some (len, n) →
    len ≤ s.maxLen.toNat → u.length - (8 + n) < len → s.ctrl.allowPartial = false →
    s.params.autoTrunc = .fallbackRaw →
    o = { base with
      code := .truncated, result := .fallbackRaw, data := byteData u
      declLen := BitVec.ofNat 64 len, hdrLen := BitVec.ofNat 32 (8 + n) }

/-- The invariant of the configuration, the buffers and the sequencer: the parameters meet their bounds (00 R9, R10);
IBUF is in canonical form and lists no entry beyond IBUF_DEPTH (20 R62, R65); the accumulator holds no bit between
steps (10 R43); a running command is a legal one, in capacity, the one LAST_CMD holds, and DONE is 0 (10 R24, R45). -/
structure State.Inv (s : State) : Prop where
  paramsWf : s.params.wf
  ibufWf : s.ibuf.wf
  ibufInRange : ∀ e ∈ s.ibuf, e.1 < s.params.ibufDepth
  accumulatorClear : s.accumulator = ⟨0#18, 0#5⟩
  busyLegal : s.phase = .busy →
    legal s.cur = true ∧ s.cur = s.lastCmd ∧ s.inLen.toNat ≤ s.params.ibufDepth ∧ s.status.done = false

/-- The invariant of the results: OBUF holds exactly OUT_LEN entries, they fit the buffer (10 R47) and are bytes or
symbols (30 R98); no defect disappears and RESULT agrees with CODE (60 R299, R303); the padding signal belongs to an
unpack (10 R29 to R31), BADWORD_POS to BAD_WORD (10 R38); DECL_LEN and HDR_LEN are 0 where no varint was written or
read, and HDR_LEN is a header's length, 9 to 18, where one was: FRAMED, ABSURD_LENGTH or TRUNCATED (10 R28, R36, R37,
30 R102). -/
structure State.ResultInv (s : State) : Prop where
  outLen : s.obuf.length = s.outLen.toNat
  fits : s.obuf.length ≤ s.params.obufDepth
  entries : ∀ e ∈ s.obuf, e.toNat < 2048
  acceptIffNoDefect : s.status.result = .accept ↔ s.status.code = .noDefect
  fallback : s.status.result = .fallbackRaw →
    s.status.unpacked = true ∧ s.status.framed = false ∧
      (s.status.code = .badHeader ∨ s.status.code = .absurdLength ∨
        s.status.code = .truncated ∧ s.params.autoTrunc = .fallbackRaw)
  partialFramed : s.status.result = .partialAccept → s.status.code = .truncated ∧ s.status.framed = true
  hardFailNoData : s.status.result = .hardFail → s.status.code ≠ .badPadding → s.outLen = 0#32
  padding : s.status.unpacked = false → s.status.padClean = false ∧ s.status.padCount = 0#3
  badPadding : s.status.code = .badPadding → s.status.unpacked = true ∧ s.status.padClean = false
  badWordPos : s.badwordPos ≠ 0#32 → s.status.code = .badWord
  noFrameFields : s.status.framed = false → s.status.code ≠ .absurdLength → s.status.code ≠ .truncated →
    s.declLen = 0#64 ∧ s.hdrLen = 0#32
  frameFields : s.status.framed = true ∨ s.status.code = .absurdLength ∨ s.status.code = .truncated →
    9 ≤ s.hdrLen.toNat ∧ s.hdrLen.toNat ≤ 18

end Sys2Proof.Machine
end

