-- ==== Sys2Proof/Certificates/Slice0/Obligations.lean ====
section
/-! DEFINITION. The statements about the model, made from the numbered rules of the spec. Statements only; nothing here
is proved. -/

open Sys2Proof Sys2Proof.Machine

/-! ## Encoding (30 §1) -/

/-- The seven words of 30 R93 decode to their commands, and one word of each illegal group of 30 R94 to none. -/
def Obligations.SevenWordsDecode : Prop :=
  decode 0x00000001#32 = .ok .encodeRaw ∧ decode 0x00000011#32 = .ok .encodeFramed ∧
  decode 0x00000002#32 = .ok .decodeRaw ∧ decode 0x00000012#32 = .ok .decodeFramed ∧
  decode 0x00000022#32 = .ok .decodeAuto ∧ decode 0x00000003#32 = .ok .frameWrap ∧
  decode 0x00000013#32 = .ok .frameUnwrap ∧
  decode 0x00000042#32 = .error .reservedBits ∧ decode 0x00000004#32 = .error .reservedOp ∧
  decode 0x00000032#32 = .error .reservedSub

/-- The encoder's word of a well-formed command decodes to that command. -/
def Obligations.DecodeOfEncode : Prop :=
  ∀ i : Instr, i.wellFormed = true → decode (encode i) = .ok i

/-- The decoder compares the whole word: a word decodes to a command exactly when it is that command's word, and the
words are those of the table (30 R93). -/
def Obligations.DecodeMatchesWholeWord : Prop :=
  (∀ (w : Word) (i : Instr), decode w = .ok i ↔ w = encode i) ∧
  encode .encodeRaw = 0x00000001#32 ∧ encode .encodeFramed = 0x00000011#32 ∧
  encode .decodeRaw = 0x00000002#32 ∧ encode .decodeFramed = 0x00000012#32 ∧
  encode .decodeAuto = 0x00000022#32 ∧ encode .frameWrap = 0x00000003#32 ∧ encode .frameUnwrap = 0x00000013#32

/-- 30 R94: the legal words are the seven; the illegal ones are those of its three groups; an illegal word written while
idle completes at once, writes no data and changes no configuration. -/
def Obligations.LegalExactlySevenWords : Prop :=
  ∀ w : Word,
    (legal w = true ↔ w.toNat ∈ [0x01, 0x11, 0x02, 0x12, 0x22, 0x03, 0x13]) ∧
    (legal w = false ↔
      2 ^ 6 ≤ w.toNat ∨ (w.toNat % 16 = 0 ∨ 4 ≤ w.toNat % 16) ∨
      (w.toNat % 16 = 1 ∨ w.toNat % 16 = 3) ∧ 2 ≤ w.toNat / 16 % 4 ∨
      w.toNat % 16 = 2 ∧ w.toNat / 16 % 4 = 3) ∧
    ∀ s : State, s.phase = .idle → legal w = false →
      (s.hostWrite 0x000#32 w).phase = .idle ∧
      (s.hostWrite 0x000#32 w).status.code = .illegalCommand ∧
      (s.hostWrite 0x000#32 w).status.result = .hardFail ∧
      (s.hostWrite 0x000#32 w).outLen = 0#32 ∧
      (s.hostWrite 0x000#32 w).ctrl = s.ctrl ∧ (s.hostWrite 0x000#32 w).maxLen = s.maxLen ∧
      (s.hostWrite 0x000#32 w).inLen = s.inLen

/-! ## The step -/

/-- In the engine's turn (BUSY, and no host access comes before completion: the model's LATENCY, entry 4) the step is the
execution of the command CUR decodes to (10 R44, R45). -/
def Obligations.StepRunsDecodedCommand : Prop :=
  ∀ (s : State) (i : Instr), s.phase = .busy → s.pending = [] ∨ s.wait = 0 → decode s.cur = .ok i → i.wellFormed = true → step s = exec i s

/-- In the host's turn the step serves the oldest event, and with no event an idle block holds its state (20 R75,
60 R314). The list of events is the model's (entry 5, DESIGN CHOICE), and so is the BUSY clause's countdown of `wait`,
its form of LATENCY (entry 4, DESIGN CHOICE). -/
def Obligations.StepServesOldestEvent : Prop :=
  ∀ s : State,
    (s.phase = .idle → s.pending = [] → step s = .next s) ∧
    (∀ e es, s.phase = .idle → s.pending = e :: es → step s = { s with pending := es }.performEvent e) ∧
    ∀ e es, s.phase = .busy → s.pending = e :: es → 0 < s.wait →
      step s = { s with pending := es, wait := s.wait - 1 }.performEvent e

/-- A command placed by `withFetchWord` is the one the next step runs (the model's interface, entry 5). -/
def Obligations.PlacedCommandRunsNext : Prop :=
  ∀ (s : State) (i : Instr),
    step (s.withFetchWord 32 (encode i).toNat) = exec i (s.withFetchWord 32 (encode i).toNat)

/-! ## Issue (10 R45) -/

/-- A legal command written while idle, in capacity, makes the block BUSY with the word in CUR, sets LAST_CMD, clears
DONE, IGNORED_WRITE and the accumulator, sets the indices to 0, and changes nothing else but the model's count of draws;
how many host accesses come before completion is free (10 R45; the count, the start of the indices and the latency are
the model's: entries 4, 9 and 11). -/
def Obligations.IssueStartsCommand : Prop :=
  ∀ (s : State) (w : Word), s.phase = .idle → legal w = true → s.inLen.toNat ≤ s.params.ibufDepth →
    ∃ wait, s.hostWrite 0x000#32 w =
      { s with
        lastCmd := w, status := { s.status with ignoredWrite := false, done := false }
        phase := .busy, cur := w, inIndex := 0, outIndex := 0, wait := wait, accumulator := ⟨0#18, 0#5⟩
        draws := s.draws + 1 }

/-- 60 R297: an illegal word written while idle completes at once, without BUSY, as ILLEGAL_COMMAND. -/
def Obligations.IllegalWordCompletesAtOnce : Prop :=
  ∀ (s : State) (w : Word), s.phase = .idle → legal w = false →
    Completed (s.hostWrite 0x000#32 w) ∧
    (s.hostWrite 0x000#32 w).outcome = { outcome0 with code := .illegalCommand, result := .hardFail } ∧
    (s.hostWrite 0x000#32 w).outLen = 0#32 ∧ (s.hostWrite 0x000#32 w).lastCmd = w ∧
    (s.hostWrite 0x000#32 w).status.ignoredWrite = false ∧
    (s.hostWrite 0x000#32 w).ctrl = s.ctrl ∧ (s.hostWrite 0x000#32 w).maxLen = s.maxLen ∧
    (s.hostWrite 0x000#32 w).inLen = s.inLen ∧ (s.hostWrite 0x000#32 w).ibuf = s.ibuf ∧
    (s.hostWrite 0x000#32 w).params = s.params

/-- 60 R298: a legal command issued with IN_LEN above IBUF_DEPTH completes at once as CAPACITY; no entry is read, so it
does so whatever IBUF holds. -/
def Obligations.CapacityCompletesAtOnce : Prop :=
  ∀ (s : State) (w : Word), s.phase = .idle → legal w = true → s.params.ibufDepth < s.inLen.toNat →
    Completed (s.hostWrite 0x000#32 w) ∧
    (s.hostWrite 0x000#32 w).outcome = { outcome0 with code := .capacity, result := .hardFail } ∧
    (s.hostWrite 0x000#32 w).outLen = 0#32 ∧ (s.hostWrite 0x000#32 w).lastCmd = w ∧
    (s.hostWrite 0x000#32 w).status.ignoredWrite = false ∧
    (s.hostWrite 0x000#32 w).ctrl = s.ctrl ∧ (s.hostWrite 0x000#32 w).maxLen = s.maxLen ∧
    (s.hostWrite 0x000#32 w).inLen = s.inLen ∧ (s.hostWrite 0x000#32 w).ibuf = s.ibuf ∧
    (s.hostWrite 0x000#32 w).params = s.params

/-! ## Host accesses (20 §2, 70 §3) -/

/-- 70 R336 and R337: while BUSY a write to CMD, CTRL, MAX_LEN_LO, MAX_LEN_HI, IN_LEN or an IBUF entry is dropped and
sets IGNORED_WRITE; a write to any other offset does nothing at all. -/
def Obligations.BusyWritesAreDropped : Prop :=
  ∀ (s : State) (offset v : Word), s.params.wf → s.busy = true → offset.toNat % 4 = 0 →
    s.hostWrite offset v =
      if offset.toNat ∈ [0x000, 0x008, 0x00C, 0x010, 0x014] ∨
          (0x40000000 ≤ offset.toNat ∧ offset.toNat < 0x40000000 + 4 * s.params.ibufDepth) then
        { s with status := { s.status with ignoredWrite := true } }
      else s

/-- While idle, a write of CTRL keeps bits 1:0, a write of half of MAX_LEN changes that half alone, a write of IN_LEN
keeps every bit, and each reads back so (10 R32 to R34). -/
def Obligations.IdleConfigurationWrites : Prop :=
  ∀ (s : State) (v : Word), s.phase = .idle →
    (s.hostWrite 0x008#32 v = { s with ctrl := ⟨v.getLsbD 0, v.getLsbD 1⟩ } ∧
      ((s.hostWrite 0x008#32 v).hostRead 0x008#32).1 = v &&& 3#32) ∧
    (s.hostWrite 0x00C#32 v = { s with maxLen := (s.hostWrite 0x00C#32 v).maxLen } ∧
      ((s.hostWrite 0x00C#32 v).hostRead 0x00C#32).1 = v ∧
      ((s.hostWrite 0x00C#32 v).hostRead 0x010#32).1 = (s.hostRead 0x010#32).1 ∧
      (s.hostWrite 0x00C#32 v).maxLen.toNat = s.maxLen.toNat / 2 ^ 32 * 2 ^ 32 + v.toNat) ∧
    (s.hostWrite 0x010#32 v = { s with maxLen := (s.hostWrite 0x010#32 v).maxLen } ∧
      ((s.hostWrite 0x010#32 v).hostRead 0x010#32).1 = v ∧
      ((s.hostWrite 0x010#32 v).hostRead 0x00C#32).1 = (s.hostRead 0x00C#32).1 ∧
      (s.hostWrite 0x010#32 v).maxLen.toNat = v.toNat * 2 ^ 32 + s.maxLen.toNat % 2 ^ 32) ∧
    (s.hostWrite 0x014#32 v = { s with inLen := v } ∧ ((s.hostWrite 0x014#32 v).hostRead 0x014#32).1 = v)

/-- While idle, a write of an IBUF entry stores bits 11:0 of the value, reads back so, and changes no other entry and no
other state (20 R66). -/
def Obligations.IdleIbufWrite : Prop :=
  ∀ (s : State) (i : Nat) (offset v : Word), s.params.wf → s.phase = .idle → i < s.params.ibufDepth →
    offset.toNat = 0x40000000 + 4 * i →
    s.hostWrite offset v = { s with ibuf := (s.hostWrite offset v).ibuf } ∧
    ((s.hostWrite offset v).hostRead offset).1.toNat = v.toNat % 4096 ∧
    (s.hostWrite offset v).ibuf.read i = some (BitVec.ofNat 12 v.toNat) ∧
    ∀ j, j ≠ i → (s.hostWrite offset v).ibuf.read j = s.ibuf.read j

/-- A host read changes no state: only the model's count of draws may rise (20 R74). -/
def Obligations.ReadsHaveNoSideEffects : Prop :=
  ∀ (s : State) (offset : Word),
    { (s.hostRead offset).2 with draws := s.draws } = s ∧ (s.hostRead offset).2.draws ≤ s.draws + 1

/-- 20 R65 and 10 R42: a reserved offset reads 0 and ignores writes, with no side effect, idle or BUSY. -/
def Obligations.ReservedOffsetsReadZero : Prop :=
  ∀ (s : State) (offset v : Word), s.params.wf → offset.toNat % 4 = 0 → 0x03C < offset.toNat →
    ¬(0x40000000 ≤ offset.toNat ∧ offset.toNat < 0x40000000 + 4 * s.params.ibufDepth) →
    ¬(0x80000000 ≤ offset.toNat ∧ offset.toNat < 0x80000000 + 4 * s.params.obufDepth) →
    s.hostRead offset = (0#32, s) ∧ s.hostWrite offset v = s

/-- A write to a read-only register or to OBUF is ignored with no side effect, idle or BUSY (10 R20, 20 R67). -/
def Obligations.ReadOnlyWritesAreIgnored : Prop :=
  ∀ (s : State) (offset v : Word),
    offset.toNat ∈ [0x004, 0x018, 0x01C, 0x020, 0x024, 0x028, 0x02C, 0x030, 0x034, 0x038, 0x03C] ∨
      0x80000000 ≤ offset.toNat →
    s.hostWrite offset v = s

/-- 20 R64: an access that is not 32 bits wide or not at a multiple of 4 is outside the interface, and the model refuses
it (93 U8, entry 15). Every other access is performed; that a read's value is appended to `replies` is the model's
(entry 5, DESIGN CHOICE). -/
def Obligations.OutsideInterfaceIsRefused : Prop :=
  ∀ (s : State) (width : Nat) (offset v : Word),
    (width ≠ 32 ∨ offset.toNat % 4 ≠ 0 →
      s.performEvent (.read width offset) = .refused (.outsideInterface width offset) ∧
      s.performEvent (.write width offset v) = .refused (.outsideInterface width offset)) ∧
    (width = 32 ∧ offset.toNat % 4 = 0 →
      s.performEvent (.write width offset v) = .next (s.hostWrite offset v) ∧
      s.performEvent (.read width offset) =
        .next { (s.hostRead offset).2 with replies := s.replies ++ [(s.hostRead offset).1] })

/-- 10 R22, with the numbers of R26 and R27: the layout of STATUS as the host reads it, its reserved bits, and its value
after reset. While BUSY the fields of the result are not current values (70 R335), so they are stated while idle. -/
def Obligations.StatusWordLayout : Prop :=
  (∀ s : State,
    (s.hostRead 0x004#32).1.getLsbD 0 = s.busy ∧
    (s.hostRead 0x004#32).1.getLsbD 1 = s.status.done ∧
    (s.hostRead 0x004#32).1.getLsbD 2 = s.status.ignoredWrite ∧
    (s.hostRead 0x004#32).1.getLsbD 3 = false ∧
    (s.hostRead 0x004#32).1.extractLsb' 16 16 = 0#16 ∧
    (s.phase = .idle →
      (s.hostRead 0x004#32).1.extractLsb' 4 4 =
        (match s.status.code with
          | .noDefect => 0#4
          | .badWord => 1#4
          | .badPadding => 2#4
          | .badHeader => 3#4
          | .absurdLength => 4#4
          | .truncated => 5#4
          | .illegalCommand => 6#4
          | .capacity => 7#4) ∧
      (s.hostRead 0x004#32).1.extractLsb' 8 2 =
        (match s.status.result with
          | .accept => 0#2
          | .fallbackRaw => 1#2
          | .partialAccept => 2#2
          | .hardFail => 3#2) ∧
      (s.hostRead 0x004#32).1.getLsbD 10 = s.status.framed ∧
      (s.hostRead 0x004#32).1.getLsbD 11 = s.status.padClean ∧
      (s.hostRead 0x004#32).1.extractLsb' 12 3 = s.status.padCount ∧
      (s.hostRead 0x004#32).1.getLsbD 15 = s.status.unpacked)) ∧
  State.reset.hostRead 0x004#32 = (0#32, State.reset)

/-- While BUSY a read of a result register or of OBUF gives the next free value, whatever it is, and so do the result
fields of STATUS; CTRL, MAX_LEN, IN_LEN, LAST_CMD and written IBUF entries read as they are (70 R335; the free value is
the model's, entries 8 and 9). -/
def Obligations.BusyReads : Prop :=
  ∀ s : State, s.params.wf → s.busy = true →
    (∀ offset : Word, offset.toNat ∈ [0x018, 0x01C, 0x020, 0x024, 0x028] ∨
        (0x80000000 ≤ offset.toNat ∧ offset.toNat < 0x80000000 + 4 * s.params.obufDepth) →
      s.hostRead offset = (Config.freeWord s.draws, { s with draws := s.draws + 1 })) ∧
    (s.hostRead 0x004#32).1.extractLsb' 4 12 = (Config.freeWord s.draws).extractLsb' 4 12 ∧
    (s.hostRead 0x008#32).1 = (BitVec.ofBool s.ctrl.strictPadding ++ BitVec.ofBool s.ctrl.allowPartial).setWidth 32 ∧
    (s.hostRead 0x00C#32).1.toNat = s.maxLen.toNat % 2 ^ 32 ∧
    (s.hostRead 0x010#32).1.toNat = s.maxLen.toNat / 2 ^ 32 ∧
    (s.hostRead 0x014#32).1 = s.inLen ∧ (s.hostRead 0x02C#32).1 = s.lastCmd ∧
    ∀ (i : Nat) (e : InEntry) (offset : Word), i < s.params.ibufDepth → s.ibuf.read i = some e →
      offset.toNat = 0x40000000 + 4 * i → (s.hostRead offset).1.toNat = e.toNat

/-- 10 R40 and R41: MAGIC_LO, MAGIC_HI, IBUF_DEPTH and OBUF_DEPTH read as the parameters, and no step changes them. -/
def Obligations.HardwiredRegisters : Prop :=
  (∀ s : State, s.params.wf →
    (s.hostRead 0x030#32).1.toNat = s.params.magic[0].toNat + s.params.magic[1].toNat * 2 ^ 8 +
      s.params.magic[2].toNat * 2 ^ 16 + s.params.magic[3].toNat * 2 ^ 24 ∧
    (s.hostRead 0x034#32).1.toNat = s.params.magic[4].toNat + s.params.magic[5].toNat * 2 ^ 8 +
      s.params.magic[6].toNat * 2 ^ 16 + s.params.magic[7].toNat * 2 ^ 24 ∧
    (s.hostRead 0x038#32).1.toNat = s.params.ibufDepth ∧ (s.hostRead 0x03C#32).1.toNat = s.params.obufDepth) ∧
  ∀ s t : State, step s = .next t → t.params = s.params

/-- CMD reads 0 and LAST_CMD as it is, idle or BUSY (10 R21, R39). While idle the result registers read as completion
wrote them, and OBUF entry i below OUT_LEN as its stored 16 bits (10 R35 to R38, 20 R67). None of these reads changes the
state. -/
def Obligations.ResultsReadBack : Prop :=
  (∀ s : State, s.hostRead 0x000#32 = (0#32, s) ∧ s.hostRead 0x02C#32 = (s.lastCmd, s)) ∧
  ∀ s : State, s.params.wf → s.ResultInv → s.phase = .idle →
    s.hostRead 0x018#32 = (s.outLen, s) ∧
    s.hostRead 0x01C#32 = (BitVec.ofNat 32 (s.declLen.toNat % 2 ^ 32), s) ∧
    s.hostRead 0x020#32 = (BitVec.ofNat 32 (s.declLen.toNat / 2 ^ 32), s) ∧
    s.hostRead 0x024#32 = (s.hdrLen, s) ∧ s.hostRead 0x028#32 = (s.badwordPos, s) ∧
    ∀ (i : Nat) (offset : Word), i < s.outLen.toNat → offset.toNat = 0x80000000 + 4 * i →
      (s.hostRead offset).2 = s ∧ (s.hostRead offset).1.toNat = (s.obuf.getD i 0#16).toNat

/-- While idle, OBUF at or above OUT_LEN reads as 16 free bits and an IBUF entry never written as 12 free bits
(20 R66, R67; the free value is the model's, entries 7, 8 and 9). -/
def Obligations.UnwrittenEntriesReadFree : Prop :=
  ∀ (s : State) (i : Nat) (offset : Word), s.params.wf → s.phase = .idle →
    (s.outLen.toNat ≤ i → i < s.params.obufDepth → offset.toNat = 0x80000000 + 4 * i →
      (s.hostRead offset).1.toNat = (Config.freeWord s.draws).toNat % 2 ^ 16) ∧
    (s.ibuf.read i = none → i < s.params.ibufDepth → offset.toNat = 0x40000000 + 4 * i →
      (s.hostRead offset).1.toNat = (Config.freeWord s.draws).toNat % 2 ^ 12)

/-- 20 R76: once idle, STATUS and the results stay as completion wrote them, through every host access but a CMD write
or RESET. -/
def Obligations.ResultsStableUntilIssue : Prop :=
  ∀ (s t : State) (e : HostEvent) (es : List HostEvent), s.phase = .idle → s.pending = e :: es → e ≠ .reset →
    (∀ width v, e ≠ .write width 0x000#32 v) → step s = .next t →
    t.phase = .idle ∧ t.status = s.status ∧ t.outcome = s.outcome ∧ t.outLen = s.outLen ∧ t.pending = es

/-- A bus address names the offset o of the window exactly when it is BLOCK_BASE + o (20 R60, entry 3). -/
def Obligations.BusWindow : Prop :=
  ∀ (busAddress : Nat) (offset : Word),
    offsetOfBus busAddress = some offset ↔ busAddress = Config.blockBase + offset.toNat

/-! ## Reset (70 R331) -/

/-- 70 R331: RESET in any state, a running command included, puts every piece of state in the table's value. An OBUF
entry then reads as an arbitrary value, in the model as 16 free bits: the low 16 of the next free value, the others 0
(the model's: entries 8 and 9). -/
def Obligations.ResetValues : Prop :=
  ∀ s : State, ∃ t, s.performEvent .reset = .next t ∧
    t.phase = .idle ∧ t.status = ⟨false, false, .noDefect, .accept, false, false, 0#3, false⟩ ∧
    (t.hostRead 0x004#32).1 = 0#32 ∧ t.ctrl = ⟨false, false⟩ ∧ t.maxLen.toNat = 268435456 ∧
    t.inLen = 0#32 ∧ t.outLen = 0#32 ∧ t.declLen = 0#64 ∧ t.hdrLen = 0#32 ∧ t.badwordPos = 0#32 ∧
    t.lastCmd = 0#32 ∧ t.accumulator = ⟨0#18, 0#5⟩ ∧ t.params = s.params ∧
    (∀ offset ∈ [0x030#32, 0x034#32, 0x038#32, 0x03C#32], (t.hostRead offset).1 = (s.hostRead offset).1) ∧
    (∀ i, t.ibuf.read i = none) ∧
    ∀ offset : Word, s.params.wf → 0x80000000 ≤ offset.toNat →
      offset.toNat < 0x80000000 + 4 * s.params.obufDepth →
      (t.hostRead offset).1.toNat = (Config.freeWord t.draws).toNat % 2 ^ 16

/-- Both invariants hold right after reset. -/
def Obligations.ResetMeetsInvariants : Prop := State.reset.Inv ∧ State.reset.ResultInv

/-! ## Invariants -/

/-- Every step keeps the invariant of the configuration, the buffers and the sequencer. -/
def Obligations.StepKeepsInv : Prop := ∀ s t : State, s.Inv → step s = .next t → t.Inv

/-- Every step keeps the invariant of the results: they fit OBUF, and no defect disappears without a signal. -/
def Obligations.StepKeepsResultInv : Prop :=
  ∀ s t : State, s.Inv → s.ResultInv → step s = .next t → t.ResultInv

/-- The frame of every command: where it gives a next state it has completed, and CTRL, MAX_LEN, IN_LEN, IBUF, LAST_CMD,
IGNORED_WRITE, the parameters and, but for the count of draws, the model's own fields are as before (60 R302,
70 R341). -/
def Obligations.CommandsKeepConfiguration : Prop :=
  ∀ (i : Instr) (s t : State), exec i s = .next t →
    SameConfig s t ∧ Completed t ∧ ∀ k, t.inNat k = s.inNat k

/-- Every completion, a command's own and that of an illegal word or an over-capacity command at issue, leaves in CUR
and the indices the model's next free values and counts one draw: they are unspecified while idle (10 R44, 93 U7; the
free values are the model's, entries 9 and 11). -/
def Obligations.CompletionFreesSequencer : Prop :=
  (∀ (i : Instr) (s t : State), exec i s = .next t →
    t.cur = Config.idleCur s.draws ∧ t.inIndex = Config.idleInIndex s.draws ∧
    t.outIndex = Config.idleOutIndex s.draws ∧ t.draws = s.draws + 1) ∧
  ∀ (s : State) (w : Word), s.phase = .idle → (legal w = false ∨ s.params.ibufDepth < s.inLen.toNat) →
    (s.hostWrite 0x000#32 w).cur = Config.idleCur s.draws ∧
    (s.hostWrite 0x000#32 w).inIndex = Config.idleInIndex s.draws ∧
    (s.hostWrite 0x000#32 w).outIndex = Config.idleOutIndex s.draws ∧
    (s.hostWrite 0x000#32 w).draws = s.draws + 1

/-- 10 R44 and 93 U7: what CUR and the indices hold while idle is never observable. With any other values there, a step
answers the same: it refuses the same access, or it gives the same next state but for CUR and the indices, and for those
too once a command runs. -/
def Obligations.IdleSequencerIsUnobservable : Prop :=
  ∀ (s : State) (c : Word) (i o : Nat), s.phase = .idle →
    (∀ r, step s = .refused r → step { s with cur := c, inIndex := i, outIndex := o } = .refused r) ∧
    (∀ f, step s ≠ .fault f) ∧
    ∀ t, step s = .next t → ∃ c' i' o',
      step { s with cur := c, inIndex := i, outIndex := o } =
        .next { t with cur := c', inIndex := i', outIndex := o' } ∧
      (t.phase = .busy → c' = t.cur ∧ i' = t.inIndex ∧ o' = t.outIndex)

/-- 60 R304: the same command on the same IBUF, IN_LEN, CTRL and MAX_LEN gives the same outcome, whatever else the two
states hold. -/
def Obligations.SameOperandsSameOutcome : Prop :=
  ∀ (i : Instr) (s u t : State), u.params = s.params → u.ctrl = s.ctrl → u.maxLen = s.maxLen → u.inLen = s.inLen →
    (∀ k < s.inLen.toNat, u.ibuf.read k = s.ibuf.read k) → exec i s = .next t →
    ∃ v, exec i u = .next v ∧ v.outcome = t.outcome ∧ v.outLen = t.outLen ∧ SameConfig u v

/-! ## The commands -/

/-- ENCODE.RAW runs on every input that fits and has been written (40 R137). -/
def Obligations.EncodeRawResult : Prop :=
  ∀ s : State, s.ready → ∃ t vs, exec .encodeRaw s = .next t ∧ IsPacking s.inputBytes vs ∧
    CompletedWith s t { outcome0 with data := symbolData vs }

/-- ENCODE.FRAMED runs on every input that fits and has been written, whatever MAX_LEN is (42 R201). -/
def Obligations.EncodeFramedResult : Prop :=
  ∀ s : State, s.ready → ∃ t vs, exec .encodeFramed s = .next t ∧ IsPacking (frameOf s.params s.inputBytes) vs ∧
    CompletedWith s t { outcome0 with
      data := symbolData vs, framed := true, declLen := BitVec.ofNat 64 s.inLen.toNat
      hdrLen := BitVec.ofNat 32 (8 + (venc s.inLen.toNat).length) }

/-- FRAME.WRAP runs on every input that fits and has been written, whatever MAX_LEN is (42 R202). -/
def Obligations.FrameWrapResult : Prop :=
  ∀ s : State, s.ready → ∃ t, exec .frameWrap s = .next t ∧
    CompletedWith s t { outcome0 with
      data := byteData (frameOf s.params s.inputBytes), framed := true
      declLen := BitVec.ofNat 64 s.inLen.toNat
      hdrLen := BitVec.ofNat 32 (8 + (venc s.inLen.toNat).length) }

/-- FRAME.UNWRAP runs on every input that fits and has been written, and ends by the chain of 42 R195 to R203
(42 R204). -/
def Obligations.FrameUnwrapResult : Prop :=
  ∀ s : State, s.ready → ∃ t o, exec .frameUnwrap s = .next t ∧ FramedDecision s outcome0 s.inputBytes o ∧
    CompletedWith s t o

/-- DECODE.RAW runs on every input that fits, has been written and has no absent token (43 R243, R242). -/
def Obligations.DecodeRawResult : Prop :=
  ∀ s : State, s.ready → s.noneAbsent → ∃ t u, exec .decodeRaw s = .next t ∧ IsUnpacking s.inputSymbols u ∧
    (s.ctrl.strictPadding = true ∧ u.padClean = false → CompletedWith s t (strictPaddingOutcome u)) ∧
    (¬(s.ctrl.strictPadding = true ∧ u.padClean = false) →
      CompletedWith s t { decodeBase u with data := byteData u.bytes })

/-- DECODE.FRAMED runs on every input that fits, has been written and has no absent token, and ends by strict padding
or by the chain of 42 R195 to R203 (43 R244, R242). -/
def Obligations.DecodeFramedResult : Prop :=
  ∀ s : State, s.ready → s.noneAbsent → ∃ t u, exec .decodeFramed s = .next t ∧ IsUnpacking s.inputSymbols u ∧
    (s.ctrl.strictPadding = true ∧ u.padClean = false → CompletedWith s t (strictPaddingOutcome u)) ∧
    (¬(s.ctrl.strictPadding = true ∧ u.padClean = false) →
      ∃ o, FramedDecision s (decodeBase u) u.bytes o ∧ CompletedWith s t o)

/-- DECODE.AUTO runs on every input that fits, has been written and has no absent token, and ends by strict padding or
by the ordered table (43 R246, R242, R247). -/
def Obligations.DecodeAutoResult : Prop :=
  ∀ s : State, s.ready → s.noneAbsent → ∃ t u, exec .decodeAuto s = .next t ∧ IsUnpacking s.inputSymbols u ∧
    (s.ctrl.strictPadding = true ∧ u.padClean = false → CompletedWith s t (strictPaddingOutcome u)) ∧
    (¬(s.ctrl.strictPadding = true ∧ u.padClean = false) →
      ∃ o, AutoDecision s (decodeBase u) u.bytes o ∧ CompletedWith s t o)

/-- 43 R240 and 60 R292: with every input entry written, a DECODE in any mode whose first absent token is entry p ends
as BAD_WORD with BADWORD_POS = p, no data and no unpack. -/
def Obligations.AbsentTokenIsBadWord : Prop :=
  ∀ (s : State) (p : Nat), s.ready → s.firstAbsent p → ∀ i ∈ [Instr.decodeRaw, .decodeFramed, .decodeAuto],
    ∃ t, exec i s = .next t ∧
      CompletedWith s t { outcome0 with code := .badWord, result := .hardFail, badwordPos := BitVec.ofNat 32 p } ∧
      t.badwordPos.toNat = p

/-- The model's one fault: every command reads IBUF[0..IN_LEN) and faults at the first entry the host has not written
since reset, a DECODE also where an entry is absent (00 R7, 20 R66, 70 R340, 93 U3; that the fault names the first such
entry is the model's, entry 6). With every entry written no command faults. -/
def Obligations.UnwrittenInputFaults : Prop :=
  ∀ (i : Instr) (s : State),
    (∀ k, s.firstUnwritten k → exec i s = .fault (.unwrittenInput k)) ∧
    (s.inputWritten → ∃ t, exec i s = .next t)

/-- 60 R299: which defect each command can report and the RESULT it then has. ENCODE and FRAME.WRAP raise none;
ILLEGAL_COMMAND and CAPACITY are reported at issue only. -/
def Obligations.SeverityByMode : Prop :=
  ∀ (i : Instr) (s t : State), exec i s = .next t →
    match t.status.code with
    | .noDefect => t.status.result = .accept
    | .badWord => i ∈ [Instr.decodeRaw, .decodeFramed, .decodeAuto] ∧ t.status.result = .hardFail ∧ t.obuf = []
    | .badPadding =>
      i ∈ [Instr.decodeRaw, .decodeFramed, .decodeAuto] ∧ s.ctrl.strictPadding = true ∧ t.status.result = .hardFail
    | .badHeader | .absurdLength =>
      i ∈ [Instr.decodeFramed, .frameUnwrap] ∧ t.status.result = .hardFail ∧ t.obuf = [] ∨
        i = .decodeAuto ∧ t.status.result = .fallbackRaw
    | .truncated =>
      i ∈ [Instr.decodeFramed, .decodeAuto, .frameUnwrap] ∧
        (s.ctrl.allowPartial = true → t.status.result = .partialAccept) ∧
        (s.ctrl.allowPartial = false →
          if i = .decodeAuto ∧ s.params.autoTrunc = .fallbackRaw then t.status.result = .fallbackRaw
          else t.status.result = .hardFail ∧ t.obuf = [])
    | .illegalCommand => False
    | .capacity => False

/-! ## Packer and unpacker (40, 41) -/

/-- 40 R131 and R136: PACK_STEP from at most 10 valid bits leaves at most 10, emits at most one symbol, never holds more
than 18 bits and loses none of them; and a pack never leaves that range. -/
def Obligations.PackStepMovesBits : Prop :=
  (∀ (a : Accumulator) (b : Byte), a.acc.toNat < 2 ^ a.cnt.toNat → a.cnt.toNat ≤ 10 →
    (packStep a b).2.acc.toNat < 2 ^ (packStep a b).2.cnt.toNat ∧ (packStep a b).2.cnt.toNat ≤ 10 ∧
    (packStep a b).1.length ≤ 1 ∧
    11 * (packStep a b).1.length + (packStep a b).2.cnt.toNat = a.cnt.toNat + 8 ∧
    a.acc.toNat * 2 ^ 8 + b.toNat =
      ((packStep a b).1.headD 0#11).toNat * 2 ^ (packStep a b).2.cnt.toNat + (packStep a b).2.acc.toNat) ∧
  ∀ bs : List Byte, (packBytes ⟨0#18, 0#5⟩ bs).2.cnt.toNat ≤ 10 ∧
    (packBytes ⟨0#18, 0#5⟩ bs).2.acc.toNat < 2 ^ (packBytes ⟨0#18, 0#5⟩ bs).2.cnt.toNat

/-- 41 R161: UNPACK_STEP from at most 7 valid bits leaves at most 7, emits one or two bytes, never holds more than 18
bits and loses none of them. -/
def Obligations.UnpackStepMovesBits : Prop :=
  ∀ (a : Accumulator) (v : Symbol), a.acc.toNat < 2 ^ a.cnt.toNat → a.cnt.toNat ≤ 7 →
    (unpackStep a v).2.acc.toNat < 2 ^ (unpackStep a v).2.cnt.toNat ∧ (unpackStep a v).2.cnt.toNat ≤ 7 ∧
    (unpackStep a v).1.length = (if a.cnt.toNat ≤ 4 then 1 else 2) ∧
    8 * (unpackStep a v).1.length + (unpackStep a v).2.cnt.toNat = a.cnt.toNat + 11 ∧
    a.acc.toNat * 2 ^ 11 + v.toNat =
      ((unpackStep a v).1.foldl (fun x b => x * 2 ^ 8 + b.toNat) 0) * 2 ^ (unpackStep a v).2.cnt.toNat +
        (unpackStep a v).2.acc.toNat

/-- 40 R134 and R135: the count law and the closed form of pack. The padding bits are at most 10, all zero and all in
the last symbol, and there are any exactly when 8n is no multiple of 11. -/
def Obligations.PackClosedForm : Prop :=
  ∀ bs : List Byte, IsPacking bs (pack bs) ∧
    11 * (pack bs).length - 8 * bs.length ≤ 10 ∧
    (8 * bs.length < 11 * (pack bs).length ↔ 8 * bs.length % 11 ≠ 0) ∧
    ∀ k, 8 * bs.length ≤ k → k < 11 * (pack bs).length →
      symbolBit (pack bs) k = false ∧ k / 11 = (pack bs).length - 1

/-- 41 R164, with the count law of R163: the closed form of unpack and of its padding signal. -/
def Obligations.UnpackClosedForm : Prop := ∀ vs : List Symbol, IsUnpacking vs (unpack vs)

/-- 41 R166: unpack inverts pack but for at most one zero byte, and the padding is clean. -/
def Obligations.UnpackInvertsPack : Prop :=
  ∀ bs : List Byte, ∃ p k, p = 11 * ((8 * bs.length + 10) / 11) - 8 * bs.length ∧ p ≤ 10 ∧
    k = (if 8 ≤ p then 1 else 0) ∧
    unpack (pack bs) = ⟨bs ++ List.replicate k 0#8, true, BitVec.ofNat 3 (p % 8)⟩

/-! ## Frame marshaller (42) -/

/-- 42 R190: the varint of L is minimal, and byte i carries bits 7i+6 to 7i of L with the continuation bit on all but
the last. -/
def Obligations.VarintEncoderIsMinimal : Prop :=
  ∀ len : Nat,
    (venc len).length = max 1 ((Nat.size len + 6) / 7) ∧
    ∀ i < (venc len).length, ((venc len).getD i 0#8).toNat =
      len / 2 ^ (7 * i) % 128 + if i + 1 < (venc len).length then 128 else 0

/-- 42 R191: which byte sequences the varint decoder reads, to which value and length. -/
def Obligations.VarintDecoderReads : Prop :=
  ∀ (bs : List Byte) (len n : Nat), vdec bs = some (len, n) ↔
    (1 ≤ n ∧ n ≤ 10 ∧ n ≤ bs.length ∧ (∀ i, i + 1 < n → 128 ≤ (bs.getD i 0#8).toNat) ∧
      (bs.getD (n - 1) 0#8).toNat < 128 ∧ (n = 10 → (bs.getD 9 0#8).toNat ≤ 1) ∧
      len = ((List.range n).map fun i => (bs.getD i 0#8).toNat % 128 * 2 ^ (7 * i)).sum)

/-- The decoder reads back every length the encoder writes, whatever follows it, and no value of 2^64 or more. -/
def Obligations.VarintRoundTrip : Prop :=
  (∀ (len : Nat) (rest : List Byte), len < 2 ^ 64 → vdec (venc len ++ rest) = some (len, (venc len).length)) ∧
  ∀ (bs : List Byte) (len n : Nat), vdec bs = some (len, n) → len < 2 ^ 64

/-! ## Laws of the commands (43 §3) -/

/-- 43 R250: a framed encode decodes in framed mode to exactly the input, whatever CTRL is. -/
def Obligations.FramedRoundTrip : Prop :=
  ∀ s : State, s.ready → ∃ t, exec .encodeFramed s = .next t ∧
    ∀ u : State, u.ready → u.params.magic = s.params.magic → u.holdsEntries t.obuf →
      s.inLen.toNat ≤ u.maxLen.toNat →
      ∃ v, exec .decodeFramed u = .next v ∧ v.status.code = .noDefect ∧ v.status.result = .accept ∧
        v.status.framed = true ∧ v.obuf = byteData s.inputBytes

/-- 43 R251: a raw encode decodes in raw mode to the input and at most one zero byte, with clean padding. -/
def Obligations.RawRoundTrip : Prop :=
  ∀ s : State, s.ready → ∃ t, exec .encodeRaw s = .next t ∧
    ∀ u : State, u.ready → u.holdsEntries t.obuf →
      ∃ v k, k ≤ 1 ∧ exec .decodeRaw u = .next v ∧ v.status.code = .noDefect ∧ v.status.result = .accept ∧
        v.status.padClean = true ∧ v.obuf = byteData (s.inputBytes ++ List.replicate k 0#8)

/-- 43 R253: a framed encode with its last K words removed. The first part is for STRICT_PADDING = 0; with
STRICT_PADDING = 1 non-zero leftover bits end both decodes as BAD_PADDING. -/
def Obligations.TruncationByRemovedWords : Prop :=
  ∀ s : State, s.ready → ∃ t, exec .encodeFramed s = .next t ∧
    ∀ (u : State) (removed : Nat), u.ready → u.params.magic = s.params.magic →
      0 < removed → removed < t.obuf.length → u.holdsEntries (t.obuf.take (t.obuf.length - removed)) →
      s.inLen.toNat ≤ u.maxLen.toNat →
      ∃ f a len hdr, exec .decodeFramed u = .next f ∧ exec .decodeAuto u = .next a ∧
        len = 11 * (t.obuf.length - removed) / 8 ∧ hdr = 8 + (venc s.inLen.toNat).length ∧
        (u.ctrl.strictPadding = false → hdr ≤ len →
          f.status.code = .truncated ∧ a.status.code = .truncated ∧ len - hdr < s.inLen.toNat ∧
          (u.ctrl.allowPartial = true →
            f.status.result = .partialAccept ∧ f.obuf = byteData (s.inputBytes.take (len - hdr)) ∧
            a.status.result = .partialAccept ∧ a.obuf = byteData (s.inputBytes.take (len - hdr))) ∧
          (u.ctrl.allowPartial = false →
            f.status.result = .hardFail ∧ f.obuf = [] ∧
            (u.params.autoTrunc = .hardFail → a.status.result = .hardFail ∧ a.obuf = []))) ∧
        (u.ctrl.strictPadding = false → len < hdr →
          f.status.code = .badHeader ∧ f.status.result = .hardFail ∧ f.obuf = [] ∧
          (8 ≤ len → a.status.code = .badHeader ∧ a.status.result = .fallbackRaw) ∧
          (len < 8 → a.status.code = .noDefect ∧ a.status.result = .accept) ∧
          a.obuf = byteData ((frameOf s.params s.inputBytes).take len)) ∧
        (u.ctrl.strictPadding = true →
          (∃ k, 8 * len ≤ k ∧ k < 11 * u.inLen.toNat ∧ symbolBit u.inputSymbols k = true) →
          f.status.code = .badPadding ∧ f.status.result = .hardFail ∧
          a.status.code = .badPadding ∧ a.status.result = .hardFail)

/-- 43 R254: a framed encode followed by any junk symbols decodes to exactly the input in framed and auto mode, if the
padding is not checked or is clean. -/
def Obligations.TrailingJunkIsIgnored : Prop :=
  ∀ s : State, s.ready → ∃ t, exec .encodeFramed s = .next t ∧
    ∀ (u : State) (junk : List Symbol), u.ready → u.params.magic = s.params.magic →
      u.holdsEntries (t.obuf ++ symbolData junk) → s.inLen.toNat ≤ u.maxLen.toNat →
      (u.ctrl.strictPadding = false ∨ ∀ k < 11 * u.inLen.toNat, 8 * (11 * u.inLen.toNat / 8) ≤ k →
        symbolBit u.inputSymbols k = false) →
      ∀ i ∈ [Instr.decodeFramed, .decodeAuto],
        ∃ v, exec i u = .next v ∧ v.status.code = .noDefect ∧ v.status.result = .accept ∧
          v.obuf = byteData s.inputBytes

/-- 43 R255: with MAX_LEN below the declared length, framed mode fails with ABSURD_LENGTH and auto mode falls back to
the raw bitstream, which is longer than the input and not equal to it. -/
def Obligations.CeilingBelowDeclaredLength : Prop :=
  ∀ s : State, s.ready → ∃ t, exec .encodeFramed s = .next t ∧
    ∀ u : State, u.ready → u.params.magic = s.params.magic → u.holdsEntries t.obuf →
      u.maxLen.toNat < s.inLen.toNat →
      ∃ f a k, k ≤ 1 ∧ exec .decodeFramed u = .next f ∧ f.status.code = .absurdLength ∧
        f.status.result = .hardFail ∧ f.obuf = [] ∧
        exec .decodeAuto u = .next a ∧ a.status.code = .absurdLength ∧ a.status.result = .fallbackRaw ∧
        a.obuf = byteData (frameOf s.params s.inputBytes ++ List.replicate k 0#8) ∧
        s.inLen.toNat < a.obuf.length ∧ a.obuf ≠ byteData s.inputBytes

/-! ## While a command runs (70 §3, §4) -/

/-- While BUSY no host access but RESET changes the running command, its operands or the results (20 R68, 70 R336): the
outcome does not depend on how many accesses come before completion. -/
def Obligations.BusyAccessKeepsCommand : Prop :=
  ∀ (s : State) (e : HostEvent) (es : List HostEvent), s.phase = .busy → s.pending = e :: es →
    0 < s.wait → e.wellFormed = true → e ≠ .reset →
    ∃ t, step s = .next t ∧ t.phase = .busy ∧ t.cur = s.cur ∧ t.inIndex = s.inIndex ∧ t.outIndex = s.outIndex ∧
      t.wait = s.wait - 1 ∧ t.pending = es ∧
      t.params = s.params ∧ t.ctrl = s.ctrl ∧ t.maxLen = s.maxLen ∧ t.inLen = s.inLen ∧ t.ibuf = s.ibuf ∧
      t.lastCmd = s.lastCmd ∧ t.outcome = s.outcome ∧ t.outLen = s.outLen ∧ t.status.done = s.status.done

/-- 70 R343: a running command whose input is written completes after finitely many steps, whatever accesses the host
makes meanwhile, RESET apart. -/
def Obligations.EveryCommandCompletes : Prop :=
  ∀ s : State, s.phase = .busy → s.inputWritten →
    (∀ e ∈ s.pending, e.wellFormed = true ∧ e ≠ .reset) →
    ∃ k t, k ≤ s.wait + 1 ∧ Sys2Proof.core.run k s = .next t ∧ t.phase = .idle ∧ t.status.done = true
end

