-- ==== Sys2Proof/Laws/BitStream.lean ====
section
/-! SUPPORT. The accumulator moves bits and loses none: what one step of the packer and of the unpacker does to the bit
stream (spec 40 R131, 41 R161, 20 R69, R70), said once over lists of bits, most significant first. -/

namespace Sys2Proof.Machine

/-- The low `n` bits of `x`, most significant first. -/
def bitsOf (n x : Nat) : List Bool := (List.range n).map fun t => x.testBit (n - 1 - t)

@[simp] theorem bitsOf_length (n x : Nat) : (bitsOf n x).length = n := by simp [bitsOf]

theorem bitsOf_getElem? {n x k : Nat} (h : k < n) : (bitsOf n x)[k]? = some (x.testBit (n - 1 - k)) := by
  simp [bitsOf, h]

/-- Two numbers with the same low bits have the same bit list. -/
theorem bitsOf_congr {n x y : Nat} (h : ∀ k < n, x.testBit k = y.testBit k) : bitsOf n x = bitsOf n y := by
  apply List.map_congr_left
  intro t ht
  exact h _ (by have := List.mem_range.1 ht; omega)

/-- A bit list splits at any place. -/
theorem bitsOf_add (a b x : Nat) : bitsOf (a + b) x = bitsOf a (x >>> b) ++ bitsOf b x := by
  apply List.ext_getElem?
  intro k
  rcases Nat.lt_or_ge k a with h | h
  · rw [List.getElem?_append_left (by simpa using h), bitsOf_getElem? (by omega), bitsOf_getElem? h,
      Nat.testBit_shiftRight]
    congr 2; omega
  · rw [List.getElem?_append_right (by simpa using h), bitsOf_length]
    rcases Nat.lt_or_ge k (a + b) with h2 | h2
    · rw [bitsOf_getElem? h2, bitsOf_getElem? (by omega)]
      congr 2; omega
    · rw [List.getElem?_eq_none (by simpa using h2), List.getElem?_eq_none (by simp; omega)]

theorem bitsOf_mask (n x : Nat) : bitsOf n (x &&& mask n) = bitsOf n x := by
  apply bitsOf_congr
  intro k hk
  simp [mask, hk]

/-- Shifting in `i` bits appends them. -/
theorem bitsOf_shift_or (c i acc x : Nat) (hx : x < 2 ^ i) :
    bitsOf (c + i) ((acc <<< i) ||| x) = bitsOf c acc ++ bitsOf i x := by
  rw [bitsOf_add]
  congr 1
  · congr 1
    apply Nat.eq_of_testBit_eq
    intro k
    have : x.testBit (i + k) = false := Nat.testBit_lt_two_pow (lt_of_lt_of_le hx (Nat.pow_le_pow_right (by omega) (by omega)))
    simp [Nat.testBit_shiftRight, Nat.testBit_or, Nat.testBit_shiftLeft, this]
  · apply bitsOf_congr
    intro k hk
    simp [Nat.testBit_or, Nat.testBit_shiftLeft, hk]

theorem mask_lt (k : Nat) : mask k < 2 ^ k := by
  have := Nat.two_pow_pos k
  unfold mask; omega

theorem and_mask_lt (x k : Nat) : x &&& mask k < 2 ^ k := lt_of_le_of_lt Nat.and_le_right (mask_lt k)

/-- What `drain` did to `cnt` bits `acc`: it emitted groups of `w` bits and kept fewer than `w`, in order. -/
structure Drained (w acc cnt : Nat) (r : List Nat × Nat × Nat) : Prop where
  bits : bitsOf cnt acc = r.1.flatMap (bitsOf w) ++ bitsOf r.2.2 r.2.1
  left : r.2.2 < w
  value : r.2.1 < 2 ^ r.2.2
  count : r.1.length * w + r.2.2 = cnt
  emitted : ∀ e ∈ r.1, e < 2 ^ w

theorem drain_spec {w : Nat} (hw : 0 < w) (fuel acc cnt : Nat) (hf : cnt ≤ fuel) (ha : acc < 2 ^ cnt) :
    Drained w acc cnt (drain w fuel acc cnt) := by
  induction fuel generalizing acc cnt with
  | zero =>
    have : cnt = 0 := by omega
    subst this
    exact ⟨by simp [drain], by simpa [drain] using hw, by simpa [drain] using ha, by simp [drain], by simp [drain]⟩
  | succ fuel ih =>
    unfold drain
    split
    · rename_i h
      have hr := ih (acc &&& mask (cnt - w)) (cnt - w) (by omega) (and_mask_lt _ _)
      refine ⟨?_, hr.left, hr.value, ?_, ?_⟩
      · dsimp only
        rw [List.flatMap_cons, List.append_assoc, ← hr.bits, bitsOf_mask, bitsOf_mask, ← bitsOf_add,
          Nat.add_sub_cancel' h]
      · have := hr.count
        simp only [List.length_cons, Nat.succ_mul]; omega
      · intro e he
        rcases List.mem_cons.1 he with rfl | he
        · exact and_mask_lt _ _
        · exact hr.emitted e he
    · exact ⟨by simp, by dsimp only; omega, ha, by simp, by simp⟩

/-- The valid bits of the accumulator, most significant first. -/
def Accumulator.bits (a : Accumulator) : List Bool := bitsOf a.cnt.toNat a.acc.toNat

/-- The accumulator's invariant, ACC < 2^ACC_CNT (10 R43). -/
def Accumulator.valid (a : Accumulator) : Prop := a.acc.toNat < 2 ^ a.cnt.toNat

/-- What one accumulator step did: the old bits and the new ones came out in groups of `outW`, in order, but for fewer
than `outW` left. -/
structure Pushed (inW outW : Nat) (a : Accumulator) (x : Nat) (r : List Nat × Accumulator) : Prop where
  bits : a.bits ++ bitsOf inW x = r.1.flatMap (bitsOf outW) ++ r.2.bits
  left : r.2.cnt.toNat < outW
  valid : r.2.valid
  count : r.1.length * outW + r.2.cnt.toNat = a.cnt.toNat + inW
  emitted : ∀ e ∈ r.1, e < 2 ^ outW

theorem push_spec {inW outW : Nat} {a : Accumulator} {x : Nat} (ho : 0 < outW) (hv : a.valid)
    (hc : a.cnt.toNat + inW ≤ 18) (hx : x < 2 ^ inW) : Pushed inW outW a x (a.push inW outW x) := by
  have hacc : (a.acc.toNat <<< inW) ||| x < 2 ^ (a.cnt.toNat + inW) := by
    apply Nat.or_lt_two_pow
    · rw [Nat.shiftLeft_eq, Nat.pow_add]
      exact Nat.mul_lt_mul_of_pos_right hv (Nat.two_pow_pos _)
    · exact lt_of_lt_of_le hx (Nat.pow_le_pow_right (by omega) (by omega))
  have hd := drain_spec ho _ _ _ (le_refl (a.cnt.toNat + inW)) hacc
  have hcnt : (drain outW (a.cnt.toNat + inW) ((a.acc.toNat <<< inW) ||| x) (a.cnt.toNat + inW)).2.2 ≤ 18 := by
    have := hd.count; omega
  have hval := lt_of_lt_of_le hd.value (Nat.pow_le_pow_right (by omega) hcnt)
  have e1 : (a.push inW outW x).2.cnt.toNat =
      (drain outW (a.cnt.toNat + inW) ((a.acc.toNat <<< inW) ||| x) (a.cnt.toNat + inW)).2.2 := by
    simp only [Accumulator.push, BitVec.toNat_ofNat]; omega
  have e2 : (a.push inW outW x).2.acc.toNat =
      (drain outW (a.cnt.toNat + inW) ((a.acc.toNat <<< inW) ||| x) (a.cnt.toNat + inW)).2.1 := by
    simp only [Accumulator.push, BitVec.toNat_ofNat]
    exact Nat.mod_eq_of_lt hval
  refine ⟨?_, by rw [e1]; exact hd.left, ?_, by rw [e1]; exact hd.count, hd.emitted⟩
  · rw [Accumulator.bits, Accumulator.bits, e1, e2, ← bitsOf_shift_or _ _ _ _ hx]
    exact hd.bits
  · rw [Accumulator.valid, e1, e2]; exact hd.value

/-- The bits of a byte sequence (20 R69). -/
def byteBits (bs : List Byte) : List Bool := bs.flatMap fun b => bitsOf 8 b.toNat

/-- The bits of a symbol sequence (20 R70). -/
def symbolBits (vs : List Symbol) : List Bool := vs.flatMap fun v => bitsOf 11 v.toNat

@[simp] theorem byteBits_append (a b : List Byte) : byteBits (a ++ b) = byteBits a ++ byteBits b := by
  simp [byteBits]

@[simp] theorem symbolBits_append (a b : List Symbol) : symbolBits (a ++ b) = symbolBits a ++ symbolBits b := by
  simp [symbolBits]

@[simp] theorem byteBits_length (bs : List Byte) : (byteBits bs).length = 8 * bs.length := by
  induction bs with
  | nil => rfl
  | cons b bs ih =>
    have : byteBits (b :: bs) = bitsOf 8 b.toNat ++ byteBits bs := rfl
    simp [this, ih]; omega

@[simp] theorem symbolBits_length (vs : List Symbol) : (symbolBits vs).length = 11 * vs.length := by
  induction vs with
  | nil => rfl
  | cons b bs ih =>
    have : symbolBits (b :: bs) = bitsOf 11 b.toNat ++ symbolBits bs := rfl
    simp [this, ih]; omega

theorem flatMap_map_ofNat {w : Nat} {es : List Nat} (h : ∀ e ∈ es, e < 2 ^ w) :
    (es.map (BitVec.ofNat w)).flatMap (fun v => bitsOf w v.toNat) = es.flatMap (bitsOf w) := by
  induction es with
  | nil => rfl
  | cons e es ih =>
    simp only [List.map_cons, List.flatMap_cons, BitVec.toNat_ofNat]
    rw [Nat.mod_eq_of_lt (h e (by simp)), ih fun x hx => h x (by simp [hx])]

/-- PACK_STEP moves bits (40 R131, R136). -/
theorem packStep_spec {a : Accumulator} (b : Byte) (hv : a.valid) (hc : a.cnt.toNat ≤ 10) :
    a.bits ++ bitsOf 8 b.toNat = symbolBits (packStep a b).1 ++ (packStep a b).2.bits ∧
      (packStep a b).2.valid ∧ (packStep a b).2.cnt.toNat ≤ 10 := by
  have h := push_spec (outW := 11) (by omega) hv (by omega : a.cnt.toNat + 8 ≤ 18) b.isLt
  refine ⟨?_, h.valid, Nat.lt_succ_iff.1 h.left⟩
  rw [h.bits]
  exact congrArg (· ++ _) (flatMap_map_ofNat h.emitted).symm

/-- UNPACK_STEP moves bits (41 R161). -/
theorem unpackStep_spec {a : Accumulator} (v : Symbol) (hv : a.valid) (hc : a.cnt.toNat ≤ 7) :
    a.bits ++ bitsOf 11 v.toNat = byteBits (unpackStep a v).1 ++ (unpackStep a v).2.bits ∧
      (unpackStep a v).2.valid ∧ (unpackStep a v).2.cnt.toNat ≤ 7 := by
  have h := push_spec (outW := 8) (by omega) hv (by omega : a.cnt.toNat + 11 ≤ 18) v.isLt
  refine ⟨?_, h.valid, Nat.lt_succ_iff.1 h.left⟩
  rw [h.bits]
  exact congrArg (· ++ _) (flatMap_map_ofNat h.emitted).symm

/-- All the pack steps together move bits. -/
theorem packBytes_spec {a : Accumulator} (bs : List Byte) (hv : a.valid) (hc : a.cnt.toNat ≤ 10) :
    a.bits ++ byteBits bs = symbolBits (packBytes a bs).1 ++ (packBytes a bs).2.bits ∧
      (packBytes a bs).2.valid ∧ (packBytes a bs).2.cnt.toNat ≤ 10 := by
  induction bs generalizing a with
  | nil => simp [packBytes, byteBits, symbolBits, hv, hc]
  | cons b bs ih =>
    obtain ⟨h1, h2, h3⟩ := packStep_spec b hv hc
    obtain ⟨g1, g2, g3⟩ := ih h2 h3
    refine ⟨?_, g2, g3⟩
    show a.bits ++ (bitsOf 8 b.toNat ++ byteBits bs) = _
    rw [← List.append_assoc, h1, List.append_assoc, g1, ← List.append_assoc]
    exact congrArg (· ++ _) (symbolBits_append _ _).symm

/-- All the unpack steps together move bits. -/
theorem unpackSymbols_spec {a : Accumulator} (vs : List Symbol) (hv : a.valid) (hc : a.cnt.toNat ≤ 7) :
    a.bits ++ symbolBits vs = byteBits (unpackSymbols a vs).1 ++ (unpackSymbols a vs).2.bits ∧
      (unpackSymbols a vs).2.valid ∧ (unpackSymbols a vs).2.cnt.toNat ≤ 7 := by
  induction vs generalizing a with
  | nil => simp [unpackSymbols, byteBits, symbolBits, hv, hc]
  | cons v vs ih =>
    obtain ⟨h1, h2, h3⟩ := unpackStep_spec v hv hc
    obtain ⟨g1, g2, g3⟩ := ih h2 h3
    refine ⟨?_, g2, g3⟩
    show a.bits ++ (bitsOf 11 v.toNat ++ symbolBits vs) = _
    rw [← List.append_assoc, h1, List.append_assoc, g1, ← List.append_assoc]
    exact congrArg (· ++ _) (byteBits_append _ _).symm

@[simp] theorem empty_bits : Accumulator.empty.bits = [] := rfl

theorem empty_valid : Accumulator.empty.valid := by
  show 0 < 2 ^ 0
  decide

/-- PACK_FLUSH appends zero bits up to a whole symbol (40 R132). -/
theorem packFlush_spec {a : Accumulator} (hc : a.cnt.toNat ≤ 10) :
    symbolBits (packFlush a) = a.bits ++ List.replicate ((11 - a.cnt.toNat) % 11) false := by
  unfold packFlush
  split
  · rename_i h
    have hlt : (a.acc.toNat <<< (11 - a.cnt.toNat)) &&& 0x7FF < 2 ^ 11 := and_mask_lt _ 11
    have hb : bitsOf 11 ((a.acc.toNat <<< (11 - a.cnt.toNat)) &&& 0x7FF) =
        bitsOf (a.cnt.toNat + (11 - a.cnt.toNat)) ((a.acc.toNat <<< (11 - a.cnt.toNat)) ||| 0) := by
      rw [show a.cnt.toNat + (11 - a.cnt.toNat) = 11 by omega, Nat.or_zero]
      exact bitsOf_mask 11 _
    have hz : bitsOf (11 - a.cnt.toNat) 0 = List.replicate (11 - a.cnt.toNat) false := by
      simp [bitsOf, List.map_const']
    have hm : (11 - a.cnt.toNat) % 11 = 11 - a.cnt.toNat := by omega
    simp only [symbolBits, List.flatMap_cons, List.flatMap_nil, List.append_nil, BitVec.toNat_ofNat]
    rw [Nat.mod_eq_of_lt hlt, hb, bitsOf_shift_or _ _ _ _ (Nat.two_pow_pos _), hm, hz]
    rfl
  · rename_i h
    have : a.cnt.toNat = 0 := by omega
    simp [symbolBits, Accumulator.bits, this, bitsOf]

/-- The packed symbols hold the input's bits and then fewer than 11 zero bits (40 R135). -/
theorem pack_bits (bs : List Byte) :
    ∃ p < 11, symbolBits (pack bs) = byteBits bs ++ List.replicate p false := by
  obtain ⟨h1, -, h3⟩ := packBytes_spec bs empty_valid (by decide)
  refine ⟨(11 - (packBytes Accumulator.empty bs).2.cnt.toNat) % 11, Nat.mod_lt _ (by omega), ?_⟩
  rw [pack, symbolBits_append, packFlush_spec h3, ← List.append_assoc, ← h1]
  rfl

/-- The unpacked bytes hold the symbols' bits but for the fewer than 8 left over, which PAD_COUNT counts and PAD_CLEAN
describes (41 R162, R164). -/
theorem unpack_bits (vs : List Symbol) :
    ∃ pad : List Bool, symbolBits vs = byteBits (unpack vs).bytes ++ pad ∧ pad.length < 8 ∧
      (unpack vs).padCount.toNat = pad.length ∧ ((unpack vs).padClean = true ↔ ∀ b ∈ pad, b = false) := by
  obtain ⟨h1, h2, h3⟩ := unpackSymbols_spec vs empty_valid (by decide)
  refine ⟨(unpackSymbols Accumulator.empty vs).2.bits, h1, ?_, ?_, ?_⟩
  · rw [Accumulator.bits, bitsOf_length]; omega
  · simp only [unpack, Accumulator.padCount, Accumulator.bits, bitsOf_length, BitVec.toNat_setWidth]
    exact Nat.mod_eq_of_lt (by omega)
  · simp only [unpack, Accumulator.padClean, beq_iff_eq]
    constructor
    · intro h
      simp [Accumulator.bits, h, bitsOf]
    · intro h
      have hz : (unpackSymbols Accumulator.empty vs).2.acc.toNat = 0 := by
        apply Nat.eq_of_testBit_eq
        intro k
        rw [Nat.zero_testBit]
        rcases Nat.lt_or_ge k (unpackSymbols Accumulator.empty vs).2.cnt.toNat with hk | hk
        · have := h _ (List.mem_of_getElem? (bitsOf_getElem?
            (n := (unpackSymbols Accumulator.empty vs).2.cnt.toNat)
            (x := (unpackSymbols Accumulator.empty vs).2.acc.toNat)
            (k := (unpackSymbols Accumulator.empty vs).2.cnt.toNat - 1 - k) (by omega)))
          rwa [show (unpackSymbols Accumulator.empty vs).2.cnt.toNat - 1 -
            ((unpackSymbols Accumulator.empty vs).2.cnt.toNat - 1 - k) = k by omega] at this
        · exact Nat.testBit_lt_two_pow (lt_of_lt_of_le h2 (Nat.pow_le_pow_right (by omega) hk))
      exact BitVec.eq_of_toNat_eq hz

end Sys2Proof.Machine
end

