-- ==== Sys2Proof/Laws/Config.lean ====
section
/-! SUPPORT. The parameters of the block meet the bounds of spec 00 R9 and R10, whatever they are. -/

namespace Sys2Proof

/-- Up to `ibufDepthMax` entries leave room for an OBUF_DEPTH (00 R10). -/
theorem obufMin_le {d : Nat} (h : d ≤ Config.ibufDepthMax) : obufMin d ≤ 2 ^ 28 := by
  unfold obufMin
  unfold Config.ibufDepthMax at h
  omega

theorem params_wf : Config.params.wf := by
  have h1 : Config.ibufDepthChoice % Config.ibufDepthMax < Config.ibufDepthMax := Nat.mod_lt _ (by decide)
  have hi : Config.ibufDepth ≤ Config.ibufDepthMax := h1
  have hm := obufMin_le hi
  refine ⟨Nat.succ_le_succ (Nat.zero_le _), le_trans hi (by decide), Nat.le_add_right _ _, ?_⟩
  show obufMin Config.ibufDepth + Config.obufDepthChoice % (2 ^ 28 - obufMin Config.ibufDepth + 1) ≤ 2 ^ 28
  have := Nat.mod_lt Config.obufDepthChoice (show 0 < 2 ^ 28 - obufMin Config.ibufDepth + 1 by omega)
  omega

/-- The largest IBUF_DEPTH of the model is the largest for which 00 R10 can be met. -/
theorem obufMin_gt {d : Nat} (h : Config.ibufDepthMax < d) : 2 ^ 28 < obufMin d := by
  unfold obufMin
  unfold Config.ibufDepthMax at h
  omega

end Sys2Proof
end

