-- ==== Sys2Proof/Laws/State.lean ====
section
/-! SUPPORT. One lemma per field per update of the state, each true by rfl, so that no later proof unfolds a record
update. -/

namespace Sys2Proof.Machine

/-! Completion (`State.finish`). -/

@[simp] theorem finish_params (s : State) (o : CmdOutcome) : (s.finish o).params = s.params := rfl

@[simp] theorem finish_status_done (s : State) (o : CmdOutcome) :
    (s.finish o).status.done = true := rfl

@[simp] theorem finish_status_ignoredWrite (s : State) (o : CmdOutcome) :
    (s.finish o).status.ignoredWrite = s.status.ignoredWrite := rfl

@[simp] theorem finish_status_code (s : State) (o : CmdOutcome) :
    (s.finish o).status.code = o.code := rfl

@[simp] theorem finish_status_result (s : State) (o : CmdOutcome) :
    (s.finish o).status.result = o.result := rfl

@[simp] theorem finish_status_framed (s : State) (o : CmdOutcome) :
    (s.finish o).status.framed = o.framed := rfl

@[simp] theorem finish_status_padClean (s : State) (o : CmdOutcome) :
    (s.finish o).status.padClean = o.padClean := rfl

@[simp] theorem finish_status_padCount (s : State) (o : CmdOutcome) :
    (s.finish o).status.padCount = o.padCount := rfl

@[simp] theorem finish_status_unpacked (s : State) (o : CmdOutcome) :
    (s.finish o).status.unpacked = o.unpacked := rfl

@[simp] theorem finish_ctrl (s : State) (o : CmdOutcome) : (s.finish o).ctrl = s.ctrl := rfl

@[simp] theorem finish_maxLen (s : State) (o : CmdOutcome) : (s.finish o).maxLen = s.maxLen := rfl

@[simp] theorem finish_inLen (s : State) (o : CmdOutcome) : (s.finish o).inLen = s.inLen := rfl

@[simp] theorem finish_outLen (s : State) (o : CmdOutcome) : (s.finish o).outLen = BitVec.ofNat 32 o.data.length := rfl

@[simp] theorem finish_declLen (s : State) (o : CmdOutcome) : (s.finish o).declLen = o.declLen := rfl

@[simp] theorem finish_hdrLen (s : State) (o : CmdOutcome) : (s.finish o).hdrLen = o.hdrLen := rfl

@[simp] theorem finish_badwordPos (s : State) (o : CmdOutcome) : (s.finish o).badwordPos = o.badwordPos := rfl

@[simp] theorem finish_lastCmd (s : State) (o : CmdOutcome) : (s.finish o).lastCmd = s.lastCmd := rfl

@[simp] theorem finish_ibuf (s : State) (o : CmdOutcome) : (s.finish o).ibuf = s.ibuf := rfl

@[simp] theorem finish_obuf (s : State) (o : CmdOutcome) : (s.finish o).obuf = o.data := rfl

@[simp] theorem finish_accumulator (s : State) (o : CmdOutcome) : (s.finish o).accumulator = Accumulator.empty := rfl

@[simp] theorem finish_phase (s : State) (o : CmdOutcome) : (s.finish o).phase = .idle := rfl

@[simp] theorem finish_pending (s : State) (o : CmdOutcome) : (s.finish o).pending = s.pending := rfl

@[simp] theorem finish_replies (s : State) (o : CmdOutcome) : (s.finish o).replies = s.replies := rfl

@[simp] theorem finish_draws (s : State) (o : CmdOutcome) : (s.finish o).draws = s.draws + 1 := rfl

@[simp] theorem finish_cur (s : State) (o : CmdOutcome) : (s.finish o).cur = Config.idleCur s.draws := rfl

@[simp] theorem finish_inIndex (s : State) (o : CmdOutcome) : (s.finish o).inIndex = Config.idleInIndex s.draws := rfl

@[simp] theorem finish_outIndex (s : State) (o : CmdOutcome) : (s.finish o).outIndex = Config.idleOutIndex s.draws := rfl

@[simp] theorem finish_wait (s : State) (o : CmdOutcome) : (s.finish o).wait = s.wait := rfl

@[simp] theorem finish_busy (s : State) (o : CmdOutcome) : (s.finish o).busy = false := rfl

/-! Drawing an arbitrary value (`State.draw`). -/

@[simp] theorem draw_fst (s : State) : s.draw.1 = Config.freeWord s.draws := rfl

@[simp] theorem draw_params (s : State) : s.draw.2.params = s.params := rfl

@[simp] theorem draw_status (s : State) : s.draw.2.status = s.status := rfl

@[simp] theorem draw_ctrl (s : State) : s.draw.2.ctrl = s.ctrl := rfl

@[simp] theorem draw_maxLen (s : State) : s.draw.2.maxLen = s.maxLen := rfl

@[simp] theorem draw_inLen (s : State) : s.draw.2.inLen = s.inLen := rfl

@[simp] theorem draw_outLen (s : State) : s.draw.2.outLen = s.outLen := rfl

@[simp] theorem draw_declLen (s : State) : s.draw.2.declLen = s.declLen := rfl

@[simp] theorem draw_hdrLen (s : State) : s.draw.2.hdrLen = s.hdrLen := rfl

@[simp] theorem draw_badwordPos (s : State) : s.draw.2.badwordPos = s.badwordPos := rfl

@[simp] theorem draw_lastCmd (s : State) : s.draw.2.lastCmd = s.lastCmd := rfl

@[simp] theorem draw_ibuf (s : State) : s.draw.2.ibuf = s.ibuf := rfl

@[simp] theorem draw_obuf (s : State) : s.draw.2.obuf = s.obuf := rfl

@[simp] theorem draw_accumulator (s : State) : s.draw.2.accumulator = s.accumulator := rfl

@[simp] theorem draw_phase (s : State) : s.draw.2.phase = s.phase := rfl

@[simp] theorem draw_cur (s : State) : s.draw.2.cur = s.cur := rfl

@[simp] theorem draw_inIndex (s : State) : s.draw.2.inIndex = s.inIndex := rfl

@[simp] theorem draw_outIndex (s : State) : s.draw.2.outIndex = s.outIndex := rfl

@[simp] theorem draw_wait (s : State) : s.draw.2.wait = s.wait := rfl

@[simp] theorem draw_pending (s : State) : s.draw.2.pending = s.pending := rfl

@[simp] theorem draw_replies (s : State) : s.draw.2.replies = s.replies := rfl

@[simp] theorem draw_draws (s : State) : s.draw.2.draws = s.draws + 1 := rfl

/-! RESET (`State.applyReset`). -/

@[simp] theorem applyReset_params (s : State) : s.applyReset.params = s.params := rfl

@[simp] theorem applyReset_status (s : State) : s.applyReset.status = State.reset.status := rfl

@[simp] theorem applyReset_ctrl (s : State) : s.applyReset.ctrl = State.reset.ctrl := rfl

@[simp] theorem applyReset_maxLen (s : State) : s.applyReset.maxLen = State.reset.maxLen := rfl

@[simp] theorem applyReset_inLen (s : State) : s.applyReset.inLen = State.reset.inLen := rfl

@[simp] theorem applyReset_outLen (s : State) : s.applyReset.outLen = State.reset.outLen := rfl

@[simp] theorem applyReset_declLen (s : State) : s.applyReset.declLen = State.reset.declLen := rfl

@[simp] theorem applyReset_hdrLen (s : State) : s.applyReset.hdrLen = State.reset.hdrLen := rfl

@[simp] theorem applyReset_badwordPos (s : State) : s.applyReset.badwordPos = State.reset.badwordPos := rfl

@[simp] theorem applyReset_lastCmd (s : State) : s.applyReset.lastCmd = State.reset.lastCmd := rfl

@[simp] theorem applyReset_ibuf (s : State) : s.applyReset.ibuf = State.reset.ibuf := rfl

@[simp] theorem applyReset_obuf (s : State) : s.applyReset.obuf = State.reset.obuf := rfl

@[simp] theorem applyReset_accumulator (s : State) : s.applyReset.accumulator = State.reset.accumulator := rfl

@[simp] theorem applyReset_phase (s : State) : s.applyReset.phase = State.reset.phase := rfl

@[simp] theorem applyReset_cur (s : State) : s.applyReset.cur = State.reset.cur := rfl

@[simp] theorem applyReset_inIndex (s : State) : s.applyReset.inIndex = State.reset.inIndex := rfl

@[simp] theorem applyReset_outIndex (s : State) : s.applyReset.outIndex = State.reset.outIndex := rfl

@[simp] theorem applyReset_wait (s : State) : s.applyReset.wait = State.reset.wait := rfl

@[simp] theorem applyReset_pending (s : State) : s.applyReset.pending = s.pending := rfl

@[simp] theorem applyReset_replies (s : State) : s.applyReset.replies = s.replies := rfl

@[simp] theorem applyReset_draws (s : State) : s.applyReset.draws = s.draws := rfl

/-! The state right after reset (`State.reset`). -/

@[simp] theorem reset_params : State.reset.params = Config.params := rfl

@[simp] theorem reset_status : State.reset.status = Status.reset := rfl

@[simp] theorem reset_ctrl : State.reset.ctrl = ⟨false, false⟩ := rfl

@[simp] theorem reset_maxLen : State.reset.maxLen = 268435456#64 := rfl

@[simp] theorem reset_inLen : State.reset.inLen = 0#32 := rfl

@[simp] theorem reset_outLen : State.reset.outLen = 0#32 := rfl

@[simp] theorem reset_declLen : State.reset.declLen = 0#64 := rfl

@[simp] theorem reset_hdrLen : State.reset.hdrLen = 0#32 := rfl

@[simp] theorem reset_badwordPos : State.reset.badwordPos = 0#32 := rfl

@[simp] theorem reset_lastCmd : State.reset.lastCmd = 0#32 := rfl

@[simp] theorem reset_ibuf : State.reset.ibuf = [] := rfl

@[simp] theorem reset_obuf : State.reset.obuf = [] := rfl

@[simp] theorem reset_accumulator : State.reset.accumulator = Accumulator.empty := rfl

@[simp] theorem reset_phase : State.reset.phase = .idle := rfl

@[simp] theorem reset_cur : State.reset.cur = 0#32 := rfl

@[simp] theorem reset_inIndex : State.reset.inIndex = 0 := rfl

@[simp] theorem reset_outIndex : State.reset.outIndex = 0 := rfl

@[simp] theorem reset_wait : State.reset.wait = 0 := rfl

@[simp] theorem reset_pending : State.reset.pending = [] := rfl

@[simp] theorem reset_replies : State.reset.replies = [] := rfl

@[simp] theorem reset_draws : State.reset.draws = 0 := rfl

/-! Placing a command (`State.placeCommand`). -/

@[simp] theorem placeCommand_params (s : State) (w : Word) : (s.placeCommand w).params = s.params := rfl

@[simp] theorem placeCommand_status (s : State) (w : Word) : (s.placeCommand w).status = s.status := rfl

@[simp] theorem placeCommand_ctrl (s : State) (w : Word) : (s.placeCommand w).ctrl = s.ctrl := rfl

@[simp] theorem placeCommand_maxLen (s : State) (w : Word) : (s.placeCommand w).maxLen = s.maxLen := rfl

@[simp] theorem placeCommand_inLen (s : State) (w : Word) : (s.placeCommand w).inLen = s.inLen := rfl

@[simp] theorem placeCommand_outLen (s : State) (w : Word) : (s.placeCommand w).outLen = s.outLen := rfl

@[simp] theorem placeCommand_declLen (s : State) (w : Word) : (s.placeCommand w).declLen = s.declLen := rfl

@[simp] theorem placeCommand_hdrLen (s : State) (w : Word) : (s.placeCommand w).hdrLen = s.hdrLen := rfl

@[simp] theorem placeCommand_badwordPos (s : State) (w : Word) : (s.placeCommand w).badwordPos = s.badwordPos := rfl

@[simp] theorem placeCommand_lastCmd (s : State) (w : Word) : (s.placeCommand w).lastCmd = s.lastCmd := rfl

@[simp] theorem placeCommand_ibuf (s : State) (w : Word) : (s.placeCommand w).ibuf = s.ibuf := rfl

@[simp] theorem placeCommand_obuf (s : State) (w : Word) : (s.placeCommand w).obuf = s.obuf := rfl

@[simp] theorem placeCommand_accumulator (s : State) (w : Word) : (s.placeCommand w).accumulator = s.accumulator := rfl

@[simp] theorem placeCommand_phase (s : State) (w : Word) : (s.placeCommand w).phase = .busy := rfl

@[simp] theorem placeCommand_cur (s : State) (w : Word) : (s.placeCommand w).cur = w := rfl

@[simp] theorem placeCommand_inIndex (s : State) (w : Word) : (s.placeCommand w).inIndex = 0 := rfl

@[simp] theorem placeCommand_outIndex (s : State) (w : Word) : (s.placeCommand w).outIndex = 0 := rfl

@[simp] theorem placeCommand_wait (s : State) (w : Word) : (s.placeCommand w).wait = 0 := rfl

@[simp] theorem placeCommand_pending (s : State) (w : Word) : (s.placeCommand w).pending = s.pending := rfl

@[simp] theorem placeCommand_replies (s : State) (w : Word) : (s.placeCommand w).replies = s.replies := rfl

@[simp] theorem placeCommand_draws (s : State) (w : Word) : (s.placeCommand w).draws = s.draws := rfl

/-! The frame fields of an outcome (`CmdOutcome.withFrame`). -/

@[simp] theorem withFrame_code (o : CmdOutcome) (len hdr : Nat) : (o.withFrame len hdr).code = o.code := rfl

@[simp] theorem withFrame_result (o : CmdOutcome) (len hdr : Nat) : (o.withFrame len hdr).result = o.result := rfl

@[simp] theorem withFrame_framed (o : CmdOutcome) (len hdr : Nat) : (o.withFrame len hdr).framed = o.framed := rfl

@[simp] theorem withFrame_unpacked (o : CmdOutcome) (len hdr : Nat) : (o.withFrame len hdr).unpacked = o.unpacked := rfl

@[simp] theorem withFrame_padClean (o : CmdOutcome) (len hdr : Nat) : (o.withFrame len hdr).padClean = o.padClean := rfl

@[simp] theorem withFrame_padCount (o : CmdOutcome) (len hdr : Nat) : (o.withFrame len hdr).padCount = o.padCount := rfl

@[simp] theorem withFrame_data (o : CmdOutcome) (len hdr : Nat) : (o.withFrame len hdr).data = o.data := rfl

@[simp] theorem withFrame_declLen (o : CmdOutcome) (len hdr : Nat) : (o.withFrame len hdr).declLen = BitVec.ofNat 64 len := rfl

@[simp] theorem withFrame_hdrLen (o : CmdOutcome) (len hdr : Nat) : (o.withFrame len hdr).hdrLen = BitVec.ofNat 32 hdr := rfl

@[simp] theorem withFrame_badwordPos (o : CmdOutcome) (len hdr : Nat) : (o.withFrame len hdr).badwordPos = o.badwordPos := rfl

/-! BUSY and PHASE (10 R23, R44). -/

theorem busy_iff (s : State) : s.busy = true ↔ s.phase = .busy := by
  unfold State.busy; cases s.phase <;> simp

theorem not_busy_iff (s : State) : s.busy = false ↔ s.phase = .idle := by
  unfold State.busy; cases s.phase <;> simp

end Sys2Proof.Machine
end

