-- ==== Sys2Proof/Laws/Framer.lean ====
section
/-! SUPPORT. The frame marshaller's small lemmas: the magic test, the varint loops one byte at a time, and everything
an unwrap can answer (spec 42 R190 to R200). -/

namespace Sys2Proof.Machine

@[simp] theorem magicBytes_length (p : Params) : p.magicBytes.length = 8 := rfl

/-- The magic test is equality of the first 8 bytes: fewer than 8 never match (42 R192). -/
theorem magicMatch_iff (p : Params) (u : List Byte) : magicMatch p u = true ↔ u.take 8 = p.magicBytes := by
  unfold magicMatch Config.magicLen
  constructor
  · intro h
    rw [Bool.and_eq_true] at h
    exact beq_iff_eq.1 h.2
  · intro h
    have hl := congrArg List.length h
    rw [List.length_take, magicBytes_length] at hl
    simp [h]; omega

theorem wrap_length (p : Params) (bs : List Byte) :
    (wrap p bs).length = wrapHdrLen bs.length + bs.length := by
  simp [wrap, wrapHdrLen, Config.magicLen]; omega

/-- A length below 0x80 is one byte. -/
theorem vencLoop_last {fuel len : Nat} (h : len < 0x80) : vencLoop fuel len = [BitVec.ofNat 8 len] := by
  cases fuel with
  | zero => rfl
  | succ f => rw [vencLoop, if_neg (by omega)]

/-- A length of 0x80 or more is a continued byte and the rest (42 R190). -/
theorem vencLoop_more {fuel len : Nat} (h : 0x80 ≤ len) :
    vencLoop (fuel + 1) len = BitVec.ofNat 8 ((len &&& 0x7F) ||| 0x80) :: vencLoop fuel (len >>> 7) := by
  rw [vencLoop, if_pos h]

@[simp] theorem vdecLoop_nil (i x sh : Nat) : vdecLoop [] i x sh = none := rfl

/-- The tenth byte was not the last: unreadable (42 R191). -/
theorem vdecLoop_long (b : Byte) (bs : List Byte) (x sh : Nat) : vdecLoop (b :: bs) 10 x sh = none := rfl

/-- A byte with its continuation bit clear is the last one (42 R191). -/
theorem vdecLoop_last {b : Byte} {bs : List Byte} {i x sh : Nat} (hi : i < 10) (hb : b.toNat < 0x80)
    (h9 : i = 9 → b.toNat ≤ 1) : vdecLoop (b :: bs) i x sh = some (x ||| (b.toNat <<< sh), i + 1) := by
  unfold vdecLoop Config.varintMaxBytes
  rw [if_neg (by omega), if_pos hb, if_neg (by omega)]

/-- A byte with its continuation bit set adds 7 bits (42 R191). -/
theorem vdecLoop_more {b : Byte} {bs : List Byte} {i x sh : Nat} (hi : i < 10) (hb : 0x80 ≤ b.toNat) :
    vdecLoop (b :: bs) i x sh = vdecLoop bs (i + 1) (x ||| ((b.toNat &&& 0x7F) <<< sh)) (sh + 7) := by
  rw [vdecLoop, if_neg (by simp only [Config.varintMaxBytes]; omega), if_neg (by omega)]

/-- All an unwrap can answer, in the order of its steps (42 R195 to R200). -/
theorem unwrap_cases (p : Params) (maxLen : Nat) (u : List Byte) :
    (u.take 8 ≠ p.magicBytes ∧ unwrap p maxLen u = .badHeader) ∨
    (u.take 8 = p.magicBytes ∧ vdec (u.drop 8) = none ∧ unwrap p maxLen u = .badHeader) ∨
    ∃ len n, u.take 8 = p.magicBytes ∧ vdec (u.drop 8) = some (len, n) ∧
      ((maxLen < len ∧ unwrap p maxLen u = .absurd len (8 + n)) ∨
       (len ≤ maxLen ∧ u.length - (8 + n) < len ∧ unwrap p maxLen u = .truncated (u.drop (8 + n)) len (8 + n)) ∨
       (len ≤ maxLen ∧ len ≤ u.length - (8 + n) ∧
          unwrap p maxLen u = .ok ((u.drop (8 + n)).take len) len (8 + n))) := by
  by_cases hm : u.take 8 = p.magicBytes
  · have hmm := (magicMatch_iff p u).2 hm
    cases hv : vdec (u.drop 8) with
    | none => exact .inr (.inl ⟨hm, rfl, by simp [unwrap, hmm, hv, Config.magicLen]⟩)
    | some r =>
      obtain ⟨len, n⟩ := r
      refine .inr (.inr ⟨len, n, hm, rfl, ?_⟩)
      have hu : unwrap p maxLen u = if maxLen < len then .absurd len (8 + n)
          else if u.length - (8 + n) < len then .truncated (u.drop (8 + n)) len (8 + n)
          else .ok ((u.drop (8 + n)).take len) len (8 + n) := by
        simp only [unwrap, hmm, hv, Config.magicLen]; rfl
      rw [hu]
      by_cases h1 : maxLen < len
      · exact .inl ⟨h1, if_pos h1⟩
      · by_cases h2 : u.length - (8 + n) < len
        · exact .inr (.inl ⟨by omega, h2, by rw [if_neg h1, if_pos h2]⟩)
        · exact .inr (.inr ⟨by omega, by omega, by rw [if_neg h1, if_neg h2]⟩)
  · have hmm : magicMatch p u = false := by
      cases h : magicMatch p u with
      | false => rfl
      | true => exact absurd ((magicMatch_iff p u).1 h) hm
    exact .inl ⟨hm, by simp [unwrap, hmm]⟩

end Sys2Proof.Machine
end

