-- ==== Sys2Proof/Laws/Memory.lean ====
section
/-! SUPPORT. IBUF's laws: read after write, and every operation keeps the canonical form (spec 20 R66). -/

namespace Sys2Proof.Machine

@[simp] theorem Memory.read_nil (i : Nat) : Memory.read [] i = none := rfl

@[simp] theorem Memory.read_cons (k : Nat) (v : InEntry) (m : Memory) (i : Nat) :
    Memory.read ((k, v) :: m) i = if k = i then some v else Memory.read m i := rfl

/-- An index below every listed one holds no value. -/
theorem Memory.read_none_of_lt {m : Memory} {i : Nat} (h : ∀ e ∈ m, i < e.1) : Memory.read m i = none := by
  induction m with
  | nil => rfl
  | cons e m ih =>
    obtain ⟨k, v⟩ := e
    have hk : i < k := h (k, v) (by simp)
    rw [Memory.read_cons, if_neg (by omega)]
    exact ih fun e he => h e (List.mem_cons_of_mem _ he)

theorem Memory.read_write_same (m : Memory) (i : Nat) (v : InEntry) : (Memory.write m i v).read i = some v := by
  induction m with
  | nil => simp [Memory.write]
  | cons e m ih =>
    obtain ⟨k, u⟩ := e
    unfold Memory.write
    split
    · rw [Memory.read_cons, if_neg (by omega)]; exact ih
    · split <;> simp

theorem Memory.read_write_other {m : Memory} {i j : Nat} (v : InEntry) (h : j ≠ i) :
    (Memory.write m i v).read j = m.read j := by
  induction m with
  | nil => simp [Memory.write, Ne.symm h]
  | cons e m ih =>
    obtain ⟨k, u⟩ := e
    unfold Memory.write
    split
    · rw [Memory.read_cons, Memory.read_cons, ih]
    · split
      · rename_i hk; subst hk; simp [Ne.symm h]
      · simp [Ne.symm h]

/-- A write lists no new index but the one written. -/
theorem Memory.mem_write {m : Memory} {i : Nat} {v : InEntry} {e : Nat × InEntry} (h : e ∈ Memory.write m i v) :
    e.1 = i ∨ e ∈ m := by
  induction m with
  | nil => simp [Memory.write] at h; simp [h]
  | cons a m ih =>
    obtain ⟨k, u⟩ := a
    unfold Memory.write at h
    split at h
    · rcases List.mem_cons.1 h with rfl | h
      · simp
      · rcases ih h with h | h <;> simp [h]
    · split at h
      · rcases List.mem_cons.1 h with rfl | h
        · simp
        · simp [h]
      · rcases List.mem_cons.1 h with rfl | h
        · simp
        · exact .inr h

theorem Memory.write_wf {m : Memory} (i : Nat) (v : InEntry) (h : m.wf) : (Memory.write m i v).wf := by
  induction m with
  | nil => simp [Memory.write]
  | cons a m ih =>
    obtain ⟨k, u⟩ := a
    obtain ⟨hk, hm⟩ := List.pairwise_cons.1 h
    unfold Memory.write
    split
    · refine List.pairwise_cons.2 ⟨fun e he => ?_, ih hm⟩
      rcases Memory.mem_write he with rfl | he
      · assumption
      · exact hk e he
    · split
      · rename_i hki; subst hki; exact List.pairwise_cons.2 ⟨hk, hm⟩
      · refine List.pairwise_cons.2 ⟨fun e he => ?_, h⟩
        rcases List.mem_cons.1 he with rfl | he
        · simp; omega
        · have := hk e he; simp at this ⊢; omega

theorem reset_ibuf_wf : State.reset.ibuf.wf := List.Pairwise.nil

end Sys2Proof.Machine
end

