-- ==== Sys2Proof/Laws/Operands.lean ====
section
/-! SUPPORT. What the engine's reads of IBUF give (spec 20 R66, R68) and what a command over bytes can do. -/

namespace Sys2Proof.Machine

/-- The read succeeds exactly when every entry has a value, and gives them in order. -/
theorem readEntries_ok_iff {m : Memory} {i n : Nat} {es : List InEntry} :
    readEntries m i n = .ok es ↔ es.length = n ∧ ∀ k < n, m.read (i + k) = es[k]? := by
  induction n generalizing i es with
  | zero => cases es <;> simp [readEntries]
  | succ n ih =>
    unfold readEntries
    cases hr : m.read i with
    | none =>
      refine ⟨by simp, fun ⟨hl, h⟩ => ?_⟩
      have h0 := h 0 (by omega)
      rw [Nat.add_zero, hr] at h0
      exact absurd (List.getElem?_eq_none_iff.1 h0.symm) (by omega)
    | some e =>
      cases hq : readEntries m (i + 1) n with
      | error j =>
        refine ⟨by simp, fun ⟨hl, h⟩ => ?_⟩
        cases es with
        | nil => simp at hl
        | cons x xs =>
          have := (ih (i := i + 1) (es := xs)).2 ⟨by simpa using hl, fun k hk => by
            have := h (k + 1) (by omega)
            rw [show i + (k + 1) = i + 1 + k by omega] at this
            simpa using this⟩
          rw [hq] at this; cases this
      | ok ys =>
        have hys := (ih (i := i + 1) (es := ys)).1 hq
        constructor
        · rintro h
          cases h
          refine ⟨by simp [hys.1], fun k hk => ?_⟩
          cases k with
          | zero => simpa using hr
          | succ k =>
            have := hys.2 k (by omega)
            rw [show i + (k + 1) = i + 1 + k by omega]
            simpa using this
        · rintro ⟨hl, h⟩
          cases es with
          | nil => simp at hl
          | cons x xs =>
            have hx : e = x := by
              have := h 0 (by omega); rw [Nat.add_zero, hr] at this; simpa using this
            have := (ih (i := i + 1) (es := xs)).2 ⟨by simpa using hl, fun k hk => by
              have := h (k + 1) (by omega)
              rw [show i + (k + 1) = i + 1 + k by omega] at this
              simpa using this⟩
            rw [hq] at this
            cases this; simp [hx]

/-- The read fails at the first entry without a value. -/
theorem readEntries_error_iff {m : Memory} {i n j : Nat} :
    readEntries m i n = .error j ↔
      i ≤ j ∧ j < i + n ∧ m.read j = none ∧ ∀ k, i ≤ k → k < j → (m.read k).isSome = true := by
  induction n generalizing i with
  | zero => simp [readEntries]; intros; omega
  | succ n ih =>
    unfold readEntries
    cases hr : m.read i with
    | none =>
      constructor
      · intro h; cases h
        exact ⟨le_refl _, by omega, hr, fun k h1 h2 => by omega⟩
      · rintro ⟨h1, _, _, h4⟩
        rcases Nat.lt_or_eq_of_le h1 with h | h
        · have := h4 i (le_refl _) h; simp [hr] at this
        · rw [h]
    | some e =>
      have key : (readEntries m (i + 1) n = .error j) ↔
          (i ≤ j ∧ j < i + (n + 1) ∧ m.read j = none ∧ ∀ k, i ≤ k → k < j → (m.read k).isSome = true) := by
        rw [ih]
        constructor
        · rintro ⟨h1, h2, h3, h4⟩
          refine ⟨by omega, by omega, h3, fun k hk hkj => ?_⟩
          rcases Nat.lt_or_eq_of_le hk with h | h
          · exact h4 k h hkj
          · subst h; simp [hr]
        · rintro ⟨h1, h2, h3, h4⟩
          have : i ≠ j := by rintro rfl; simp [hr] at h3
          exact ⟨by omega, by omega, h3, fun k hk hkj => h4 k (by omega) hkj⟩
      rw [← key]
      cases readEntries m (i + 1) n <;> simp

/-- All a command can do with its input: complete with the outcome of its entries, or fault at the first entry without a
value. -/
theorem withInput_cases (s : State) (f : List InEntry → CmdOutcome) :
    (∃ es, s.input = .ok es ∧ withInput s f = .next (s.finish (f es))) ∨
      ∃ i, s.input = .error i ∧ withInput s f = .fault (.unwrittenInput i) := by
  unfold withInput
  cases s.input <;> simp

/-- All a command over bytes can do: complete with the outcome of its bytes, or fault at the first entry without a
value. -/
theorem withBytes_cases (s : State) (f : List Byte → CmdOutcome) :
    (∃ es, s.input = .ok es ∧ withBytes s f = .next (s.finish (f (es.map entryByte)))) ∨
      ∃ i, s.input = .error i ∧ withBytes s f = .fault (.unwrittenInput i) :=
  withInput_cases s _

end Sys2Proof.Machine
end

