-- ==== Sys2Proof/Laws/Dispatcher.lean ====
section
/-! SUPPORT. All that a DECODE command, and any command, can do (spec 43 R240 to R242, 60 R290). -/

namespace Sys2Proof.Machine

/-- All that the prologue of a DECODE can answer: BAD_WORD at the least absent index, strict padding, or `f` of the
unpack of every symbol. -/
theorem tokensOutcome_cases (c : Ctrl) (f : Unpacked → CmdOutcome) (es : List InEntry) :
    (∃ p, es.findIdx? entryAbsent = some p ∧ tokensOutcome c f es = badWordOutcome p) ∨
    (∀ e ∈ es, entryAbsent e = false) ∧
      ((badPadding c (unpack (es.map entrySym)).padClean = true ∧
          tokensOutcome c f es = badPaddingOutcome (unpack (es.map entrySym))) ∨
        (badPadding c (unpack (es.map entrySym)).padClean = false ∧
          tokensOutcome c f es = f (unpack (es.map entrySym)))) := by
  unfold tokensOutcome
  cases hf : es.findIdx? entryAbsent with
  | some p => exact .inl ⟨p, rfl, rfl⟩
  | none =>
    refine .inr ⟨List.findIdx?_eq_none_iff.1 hf, ?_⟩
    cases h : badPadding c (unpack (es.map entrySym)).padClean <;> simp [h]

/-- All a DECODE command can do: complete with the outcome of its tokens, or fault at the first entry without a
value. -/
theorem withTokens_cases (s : State) (f : Unpacked → CmdOutcome) :
    (∃ es, s.input = .ok es ∧ withTokens s f = .next (s.finish (tokensOutcome s.ctrl f es))) ∨
      ∃ i, s.input = .error i ∧ withTokens s f = .fault (.unwrittenInput i) :=
  withInput_cases s _

/-- Every command ends in exactly one completion, or faults at an input entry without a value; none refuses
(60 R290). -/
theorem exec_cases (i : Instr) (s : State) :
    (∃ o, exec i s = .next (s.finish o)) ∨ ∃ k, exec i s = .fault (.unwrittenInput k) := by
  have h : ∀ f, (∃ o, withInput s f = .next (s.finish o)) ∨ ∃ k, withInput s f = .fault (.unwrittenInput k) := by
    intro f
    rcases withInput_cases s f with ⟨es, -, h⟩ | ⟨k, -, h⟩
    · exact .inl ⟨_, h⟩
    · exact .inr ⟨_, h⟩
  cases i <;> exact h _

/-- All that auto mode can answer: the six rows of 43 R246, row 6 by the parameter of R247. -/
theorem autoOutcome_cases (p : Params) (c : Ctrl) (maxLen : Nat) (u : Unpacked) :
    (u.bytes.take 8 ≠ p.magicBytes ∧ autoOutcome p c maxLen u = rawOutcome u) ∨
    u.bytes.take 8 = p.magicBytes ∧
      ((∃ payload len hdr, unwrap p maxLen u.bytes = .ok payload len hdr ∧
          autoOutcome p c maxLen u = frameOkOutcome (unpackedOutcome u) payload len hdr) ∨
       (unwrap p maxLen u.bytes = .badHeader ∧ autoOutcome p c maxLen u = fallbackOutcome u .badHeader) ∨
       (∃ len hdr, unwrap p maxLen u.bytes = .absurd len hdr ∧
          autoOutcome p c maxLen u = (fallbackOutcome u .absurdLength).withFrame len hdr) ∨
       ∃ available len hdr, unwrap p maxLen u.bytes = .truncated available len hdr ∧
        ((c.allowPartial = true ∧
            autoOutcome p c maxLen u = partialOutcome (unpackedOutcome u) available len hdr) ∨
         (c.allowPartial = false ∧ p.autoTrunc = .hardFail ∧
            autoOutcome p c maxLen u = truncatedOutcome (unpackedOutcome u) len hdr) ∨
         (c.allowPartial = false ∧ p.autoTrunc = .fallbackRaw ∧
            autoOutcome p c maxLen u = (fallbackOutcome u .truncated).withFrame len hdr))) := by
  unfold autoOutcome
  cases hm : magicMatch p u.bytes with
  | false =>
    refine .inl ⟨fun h => ?_, rfl⟩
    rw [(magicMatch_iff p u.bytes).2 h] at hm
    cases hm
  | true =>
    refine .inr ⟨(magicMatch_iff p u.bytes).1 hm, ?_⟩
    cases unwrap p maxLen u.bytes with
    | ok payload len hdr => exact .inl ⟨_, _, _, rfl, rfl⟩
    | badHeader => exact .inr (.inl ⟨rfl, rfl⟩)
    | absurd len hdr => exact .inr (.inr (.inl ⟨_, _, rfl, rfl⟩))
    | truncated available len hdr =>
      refine .inr (.inr (.inr ⟨available, len, hdr, rfl, ?_⟩))
      cases hc : c.allowPartial with
      | true => exact .inl ⟨rfl, rfl⟩
      | false =>
        refine .inr ?_
        cases ha : p.autoTrunc with
        | hardFail => exact .inl ⟨rfl, rfl, by simp [autoTruncOutcome, ha]⟩
        | fallbackRaw => exact .inr ⟨rfl, rfl, by simp [autoTruncOutcome, ha]⟩

/-- `bad_padding` is strict padding over leftover bits that are not all zero (41 R165). -/
theorem badPadding_iff (c : Ctrl) (padClean : Bool) :
    badPadding c padClean = true ↔ c.strictPadding = true ∧ padClean = false := by
  cases h : c.strictPadding <;> cases padClean <;> simp [badPadding, h]

end Sys2Proof.Machine
end

