-- ==== Sys2Proof/Laws/Flags.lean ====
section
/-! SUPPORT. The layout of the STATUS word, one lemma per field (spec 10 R22). -/

namespace Sys2Proof.Machine

/-- Bit `k` of a STATUS word, by the field it lies in. -/
theorem packStatus_getLsbD (unpacked : BitVec 1) (padCount : BitVec 3) (padClean framed : BitVec 1) (result : BitVec 2)
    (code : BitVec 4) (ignoredWrite done busy : BitVec 1) (k : Nat) (hk : k < 32) :
    (packStatus unpacked padCount padClean framed result code ignoredWrite done busy).getLsbD k =
      if k = 0 then busy.getLsbD 0
      else if k = 1 then done.getLsbD 0
      else if k = 2 then ignoredWrite.getLsbD 0
      else if k = 3 then false
      else if k < 8 then code.getLsbD (k - 4)
      else if k < 10 then result.getLsbD (k - 8)
      else if k = 10 then framed.getLsbD 0
      else if k = 11 then padClean.getLsbD 0
      else if k < 15 then padCount.getLsbD (k - 12)
      else if k = 15 then unpacked.getLsbD 0
      else false := by
  unfold packStatus
  simp only [BitVec.getLsbD_setWidth, BitVec.getLsbD_append, hk, decide_true, Bool.true_and]
  rcases k with _ | _ | _ | _ | _ | _ | _ | _ | _ | _ | _ | _ | _ | _ | _ | _ | k
  all_goals simp

end Sys2Proof.Machine
end

