-- ==== Sys2Proof/Laws/HostBus.lean ====
section
/-! SUPPORT. All that a host access can do (spec 20 §2, 70 R335, R336) and all that issue can do (10 R45). -/

namespace Sys2Proof.Machine

/-- The offset of a register names it, whatever the parameters are (20 R61). -/
theorem targetOf_reg (p : Params) (r : Reg) : targetOf p (BitVec.ofNat 32 r.offset) = .reg r := by
  cases r <;> rfl

theorem hostRead_reg (s : State) (r : Reg) : s.hostRead (BitVec.ofNat 32 r.offset) = s.readReg r := by
  rw [State.hostRead, targetOf_reg]

theorem hostWrite_reg (s : State) (r : Reg) (v : Word) : s.hostWrite (BitVec.ofNat 32 r.offset) v = s.writeReg r v := by
  rw [State.hostWrite, targetOf_reg]

/-- Below the IBUF window an offset that names a register is that register's. -/
theorem offset_of_targetOf_reg {p : Params} {offset : Word} {r : Reg} (h : targetOf p offset = .reg r) :
    offset.toNat = r.offset := by
  unfold targetOf at h
  dsimp only at h
  split at h
  · split at h
    · rename_i hf
      cases h
      have := List.find?_some hf
      simpa using Eq.symm (beq_iff_eq.1 this)
    · cases h
  · split at h
    · split at h <;> cases h
    · split at h <;> cases h

/-- The IBUF window (20 R62). -/
theorem targetOf_ibuf {p : Params} {offset : Word} {i : Nat} (hp : p.wf) (hi : i < p.ibufDepth)
    (h : offset.toNat = 0x40000000 + 4 * i) : targetOf p offset = .ibuf i := by
  have := hp.2.1
  unfold targetOf ibufBase obufBase
  dsimp only
  rw [if_neg (by omega), if_pos (by omega), if_pos (by omega), show (offset.toNat - 0x40000000) / 4 = i by omega]

/-- The OBUF window (20 R63). -/
theorem targetOf_obuf {p : Params} {offset : Word} {i : Nat} (hi : i < p.obufDepth)
    (h : offset.toNat = 0x80000000 + 4 * i) : targetOf p offset = .obuf i := by
  unfold targetOf ibufBase obufBase
  dsimp only
  rw [if_neg (by omega), if_neg (by omega), if_pos (by omega), show (offset.toNat - 0x80000000) / 4 = i by omega]

/-- From the OBUF window on, an offset is OBUF's or reserved (20 R63, R65). -/
theorem targetOf_high {p : Params} {offset : Word} (h : 0x80000000 ≤ offset.toNat) :
    targetOf p offset = .reserved ∨ ∃ i, targetOf p offset = .obuf i := by
  unfold targetOf ibufBase obufBase
  dsimp only
  rw [if_neg (by omega), if_neg (by omega)]
  split <;> simp

/-- Every offset that is a multiple of 4 and names no register and no buffer entry is reserved (20 R65). -/
theorem targetOf_reserved {p : Params} {offset : Word} (h : 0x03C < offset.toNat) (h4 : offset.toNat % 4 = 0)
    (hi : ¬(0x40000000 ≤ offset.toNat ∧ offset.toNat < 0x40000000 + 4 * p.ibufDepth))
    (ho : ¬(0x80000000 ≤ offset.toNat ∧ offset.toNat < 0x80000000 + 4 * p.obufDepth)) :
    targetOf p offset = .reserved := by
  cases ht : targetOf p offset with
  | reserved => rfl
  | reg r =>
    have := offset_of_targetOf_reg ht
    cases r <;> simp only [Reg.offset] at this <;> omega
  | ibuf i =>
    unfold targetOf ibufBase obufBase at ht
    dsimp only at ht
    split at ht
    · split at ht <;> cases ht
    · split at ht
      · rw [if_neg (by omega)] at ht
        cases ht
      · split at ht <;> cases ht
  | obuf i =>
    unfold targetOf ibufBase obufBase at ht
    dsimp only at ht
    split at ht
    · split at ht <;> cases ht
    · split at ht
      · split at ht <;> cases ht
      · rw [if_neg (by omega)] at ht
        cases ht

/-- A result register reads as it is while idle and as a new arbitrary value while BUSY (70 R335). -/
theorem readResult_cases (s : State) (v : Word) :
    (s.busy = false ∧ s.readResult v = (v, s)) ∨
      (s.busy = true ∧ s.readResult v = (Config.freeWord s.draws, { s with draws := s.draws + 1 })) := by
  cases h : s.busy with
  | false => exact .inl ⟨rfl, by simp [State.readResult, h]⟩
  | true => exact .inr ⟨rfl, by simp [State.readResult, h, State.draw]⟩

/-- All that issue can do: complete an illegal word, complete an over-capacity command, or make the block BUSY. -/
theorem issue_cases (s : State) (w : Word) :
    (legal w = false ∧ s.issue w =
      ({ s with lastCmd := w, status := { s.status with ignoredWrite := false, done := false } } : State).finish
        illegalOutcome) ∨
    (legal w = true ∧ s.params.ibufDepth < s.inLen.toNat ∧ s.issue w =
      ({ s with lastCmd := w, status := { s.status with ignoredWrite := false, done := false } } : State).finish
        capacityOutcome) ∨
    (legal w = true ∧ s.inLen.toNat ≤ s.params.ibufDepth ∧ s.issue w =
      { s with
        lastCmd := w, status := { s.status with ignoredWrite := false, done := false }
        phase := .busy, cur := w, inIndex := 0, outIndex := 0, wait := Config.latency s.draws
        accumulator := Accumulator.empty, draws := s.draws + 1 }) := by
  unfold State.issue
  cases hl : legal w with
  | false => exact .inl ⟨rfl, rfl⟩
  | true =>
    refine .inr ?_
    by_cases hc : s.params.ibufDepth < s.inLen.toNat
    · exact .inl ⟨rfl, hc, by simp [hc]⟩
    · exact .inr ⟨rfl, by omega, by simp [hc]⟩

/-- A host read changes no state but the model's count of draws (20 R74). -/
theorem hostRead_state (s : State) (offset : Word) :
    (s.hostRead offset).2 = s ∨ (s.hostRead offset).2 = { s with draws := s.draws + 1 } := by
  unfold State.hostRead
  cases targetOf s.params offset with
  | reg r =>
    cases r <;> simp only [State.readReg, State.readResult, State.draw] <;> (try split) <;> simp
  | ibuf i => simp only [State.readIbuf, State.draw]; split <;> simp
  | obuf i =>
    simp only [State.readObuf, State.draw]
    split
    · simp
    · split <;> simp
  | reserved => exact .inl rfl

theorem unlessBusy_of_busy {s : State} (h : s.busy = true) (f : State → State) :
    s.unlessBusy f = { s with status := { s.status with ignoredWrite := true } } := if_pos h

theorem unlessBusy_of_idle {s : State} (h : s.busy = false) (f : State → State) : s.unlessBusy f = f s :=
  if_neg (by simp [h])

/-- All that a host write can do. -/
theorem hostWrite_cases (s : State) (offset v : Word) :
    s.hostWrite offset v = s ∨
    (s.busy = true ∧ s.hostWrite offset v = { s with status := { s.status with ignoredWrite := true } }) ∨
    (s.busy = false ∧
      (s.hostWrite offset v = s.issue v ∨
       (∃ c, s.hostWrite offset v = { s with ctrl := c }) ∨
       (∃ m, s.hostWrite offset v = { s with maxLen := m }) ∨
       (∃ n, s.hostWrite offset v = { s with inLen := n }) ∨
       ∃ i e, targetOf s.params offset = .ibuf i ∧ i < s.params.ibufDepth ∧
         s.hostWrite offset v = { s with ibuf := s.ibuf.write i e })) := by
  have hi : ∀ i, targetOf s.params offset = .ibuf i → i < s.params.ibufDepth := by
    intro i h
    unfold targetOf at h
    dsimp only at h
    split at h
    · split at h <;> cases h
    · split at h
      · split at h
        · cases h; assumption
        · cases h
      · split at h <;> cases h
  unfold State.hostWrite
  cases ht : targetOf s.params offset with
  | reserved => exact .inl rfl
  | obuf i => exact .inl rfl
  | ibuf i =>
    cases hb : s.busy with
    | true => exact .inr (.inl ⟨rfl, unlessBusy_of_busy hb _⟩)
    | false =>
      exact .inr (.inr ⟨rfl, .inr (.inr (.inr (.inr ⟨i, _, rfl, hi i ht, unlessBusy_of_idle hb _⟩)))⟩)
  | reg r =>
    cases hb : s.busy with
    | true =>
      cases r <;> dsimp only [State.writeReg]
      all_goals first
        | exact .inl rfl
        | exact .inr (.inl ⟨rfl, unlessBusy_of_busy hb _⟩)
    | false =>
      cases r <;> dsimp only [State.writeReg]
      case cmd => exact .inr (.inr ⟨rfl, .inl (unlessBusy_of_idle hb _)⟩)
      case ctrl => exact .inr (.inr ⟨rfl, .inr (.inl ⟨_, unlessBusy_of_idle hb _⟩)⟩)
      case maxLenLo | maxLenHi => exact .inr (.inr ⟨rfl, .inr (.inr (.inl ⟨_, unlessBusy_of_idle hb _⟩))⟩)
      case inLen => exact .inr (.inr ⟨rfl, .inr (.inr (.inr (.inl ⟨_, unlessBusy_of_idle hb _⟩)))⟩)
      all_goals exact .inl rfl

/-- All that one event can do: refuse an access outside the interface, write, read, or reset. -/
theorem performEvent_cases (s : State) (e : HostEvent) :
    (e.wellFormed = false ∧ ∃ width offset, s.performEvent e = .refused (.outsideInterface width offset)) ∨
    (e.wellFormed = true ∧
      ((∃ width offset v, e = .write width offset v ∧ s.performEvent e = .next (s.hostWrite offset v)) ∨
       (∃ width offset, e = .read width offset ∧ s.performEvent e =
          .next { (s.hostRead offset).2 with
            replies := (s.hostRead offset).2.replies ++ [(s.hostRead offset).1] }) ∨
       (e = .reset ∧ s.performEvent e = .next s.applyReset))) := by
  cases e with
  | write width offset v =>
    cases h : HostEvent.wellFormed (.write width offset v) with
    | false => exact .inl ⟨rfl, _, _, by simp only [State.performEvent, h]; rfl⟩
    | true => exact .inr ⟨rfl, .inl ⟨_, _, _, rfl, by simp only [State.performEvent, h]; rfl⟩⟩
  | read width offset =>
    cases h : HostEvent.wellFormed (.read width offset) with
    | false => exact .inl ⟨rfl, _, _, by simp only [State.performEvent, h]; rfl⟩
    | true => exact .inr ⟨rfl, .inr (.inl ⟨_, _, rfl, by simp only [State.performEvent, h]; rfl⟩)⟩
  | reset => exact .inr ⟨rfl, .inr (.inr ⟨rfl, rfl⟩)⟩

end Sys2Proof.Machine
end

