-- ==== Sys2Proof/Laws/Safety.lean ====
section
/-! SUPPORT. The link between the terms of Safety and the operations the meanings call: the input a command reads, the
bit streams, and completion. -/

namespace Sys2Proof.Machine

@[simp] theorem inputBytes_length (s : State) : s.inputBytes.length = s.inLen.toNat := by simp [State.inputBytes]

@[simp] theorem inputSymbols_length (s : State) : s.inputSymbols.length = s.inLen.toNat := by simp [State.inputSymbols]

@[simp] theorem byteData_length (bs : List Byte) : (byteData bs).length = bs.length := by simp [byteData]

@[simp] theorem symbolData_length (vs : List Symbol) : (symbolData vs).length = vs.length := by simp [symbolData]

theorem frameOf_length (p : Params) (bs : List Byte) :
    (frameOf p bs).length = 8 + (venc bs.length).length + bs.length := by
  simp [frameOf, Params.magicBytes]; omega

/-- ABSENT is bit 11: set exactly from 2048 on (30 R97). -/
theorem entryAbsent_iff (e : InEntry) : entryAbsent e = true ↔ 2048 ≤ e.toNat := by
  unfold entryAbsent
  rw [BitVec.getLsbD, Nat.testBit_eq_decide_div_mod_eq]
  have := e.isLt
  simp; omega

/-- A command whose input is written reads exactly `inputBytes`, or `inputSymbols` (20 R68). -/
theorem input_of_written {s : State} (h : s.inputWritten) :
    ∃ es, s.input = .ok es ∧ es.map entryByte = s.inputBytes ∧ es.map entrySym = s.inputSymbols ∧
      es.length = s.inLen.toNat ∧ ∀ k < s.inLen.toNat, s.ibuf.read k = es[k]? := by
  cases hx : s.input with
  | error j =>
    have hj := (readEntries_error_iff (i := 0)).1 hx
    have h2 := h j (by omega)
    rw [hj.2.2.1] at h2
    cases h2
  | ok es =>
    obtain ⟨h1, h2⟩ := (readEntries_ok_iff (i := 0)).1 hx
    simp only [Nat.zero_add] at h2
    refine ⟨es, rfl, ?_, ?_, h1, h2⟩
    · apply List.ext_getElem (by simp [h1])
      intro i hi _
      rw [List.length_map] at hi
      have := h2 i (by omega)
      simp only [State.inputBytes, State.inNat, List.getElem_map, List.getElem_range, this, entryByte,
        List.getElem?_eq_getElem hi, Option.getD_some]
      apply BitVec.eq_of_toNat_eq
      simp [BitVec.extractLsb'_toNat]
    · apply List.ext_getElem (by simp [h1])
      intro i hi _
      rw [List.length_map] at hi
      have := h2 i (by omega)
      simp only [State.inputSymbols, State.inNat, List.getElem_map, List.getElem_range, this, entrySym,
        List.getElem?_eq_getElem hi, Option.getD_some]
      apply BitVec.eq_of_toNat_eq
      simp [BitVec.extractLsb'_toNat]

/-- A DECODE whose input is written and has no absent token unpacks `inputSymbols` (43 R241, R242). -/
theorem withTokens_of_present {s : State} (h : s.inputWritten) (hn : s.noneAbsent) (f : Unpacked → CmdOutcome) :
    withTokens s f = .next (s.finish
      (if badPadding s.ctrl (unpack s.inputSymbols).padClean then badPaddingOutcome (unpack s.inputSymbols)
        else f (unpack s.inputSymbols))) := by
  obtain ⟨es, h1, -, h3, h4, h5⟩ := input_of_written h
  have hf : es.findIdx? entryAbsent = none := by
    rw [List.findIdx?_eq_none_iff]
    intro e he
    obtain ⟨k, hk, rfl⟩ := List.getElem_of_mem he
    have hlt := hn k (by omega)
    rw [State.inNat, h5 k (by omega), List.getElem?_eq_getElem hk, Option.getD_some] at hlt
    rw [← Bool.not_eq_true, entryAbsent_iff]
    omega
  simp only [withTokens, withInput, h1, tokensOutcome, hf, h3]

/-- A DECODE whose input is written ends at the first absent token as BAD_WORD (43 R240). -/
theorem withTokens_of_absent {s : State} {p : Nat} (h : s.inputWritten) (hp : s.firstAbsent p)
    (f : Unpacked → CmdOutcome) : withTokens s f = .next (s.finish (badWordOutcome p)) := by
  obtain ⟨es, h1, -, -, h4, h5⟩ := input_of_written h
  obtain ⟨hlt, -, hge, hb⟩ := hp
  have hf : es.findIdx? entryAbsent = some p := by
    rw [List.findIdx?_eq_some_iff_getElem]
    refine ⟨by omega, ?_, fun j hj => ?_⟩
    · rw [State.inNat, h5 p hlt, List.getElem?_eq_getElem (by omega), Option.getD_some] at hge
      exact (entryAbsent_iff _).2 hge
    · have := hb j hj
      rw [State.inNat, h5 j (by omega), List.getElem?_eq_getElem (by omega), Option.getD_some] at this
      rw [entryAbsent_iff]
      omega
  simp only [withTokens, withInput, h1, tokensOutcome, hf]

/-- Bit `k` of a byte sequence's bit list is stream bit `k` (20 R69). -/
theorem byteBits_getD (bs : List Byte) (k : Nat) : (byteBits bs).getD k false = byteBit bs k := by
  induction bs generalizing k with
  | nil => simp [byteBits, byteBit]
  | cons b t ih =>
    rw [show byteBits (b :: t) = bitsOf 8 b.toNat ++ byteBits t from rfl]
    by_cases h : k < 8
    · rw [List.getD_append _ _ _ _ (by simpa using h), List.getD_eq_getElem?_getD, bitsOf_getElem? h]
      simp [byteBit, show k / 8 = 0 by omega, show k % 8 = k by omega, BitVec.testBit_toNat]
    · rw [List.getD_append_right _ _ _ _ (by simp; omega), bitsOf_length, ih]
      simp only [byteBit, show k / 8 = (k - 8) / 8 + 1 by omega, show k % 8 = (k - 8) % 8 by omega, List.getD_cons_succ]

/-- Bit `k` of a symbol sequence's bit list is stream bit `k` (20 R70). -/
theorem symbolBits_getD (vs : List Symbol) (k : Nat) : (symbolBits vs).getD k false = symbolBit vs k := by
  induction vs generalizing k with
  | nil => simp [symbolBits, symbolBit]
  | cons v t ih =>
    rw [show symbolBits (v :: t) = bitsOf 11 v.toNat ++ symbolBits t from rfl]
    by_cases h : k < 11
    · rw [List.getD_append _ _ _ _ (by simpa using h), List.getD_eq_getElem?_getD, bitsOf_getElem? h]
      simp [symbolBit, show k / 11 = 0 by omega, show k % 11 = k by omega, BitVec.testBit_toNat]
    · rw [List.getD_append_right _ _ _ _ (by simp; omega), bitsOf_length, ih]
      simp only [symbolBit, show k / 11 = (k - 11) / 11 + 1 by omega, show k % 11 = (k - 11) % 11 by omega,
        List.getD_cons_succ]

/-- Completion changes what its outcome says and nothing else (10 R47). -/
theorem finish_completedWith (s : State) (o : CmdOutcome) (h : o.data.length < 2 ^ 32) :
    CompletedWith s (s.finish o) o :=
  ⟨⟨rfl, rfl, rfl, rfl, rfl, rfl, fun _ => rfl, rfl, rfl, rfl, rfl⟩, ⟨rfl, rfl, rfl⟩, rfl, by
    show (BitVec.ofNat 32 o.data.length).toNat = o.data.length
    rw [BitVec.toNat_ofNat]
    omega⟩

end Sys2Proof.Machine
end

