-- ==== Sys2Proof/Laws/Step.lean ====
section
/-! SUPPORT. All that a step can do, for every statement over steps to derive from. -/

namespace Sys2Proof.Machine

/-- All that one step can do: hold the state while idle with no event, serve one event while idle, serve one event
while BUSY, or run the engine. -/
theorem step_cases (s : State) :
    (s.phase = .idle ∧ s.pending = [] ∧ step s = .next s) ∨
    (∃ e es, s.phase = .idle ∧ s.pending = e :: es ∧
      step s = ({ s with pending := es } : State).performEvent e) ∨
    (∃ e es, s.phase = .busy ∧ s.pending = e :: es ∧ s.wait ≠ 0 ∧
      step s = ({ s with pending := es, wait := s.wait - 1 } : State).performEvent e) ∨
    (s.phase = .busy ∧ (s.pending = [] ∨ s.wait = 0) ∧
      ((∃ i, decode s.cur = .ok i ∧ step s = exec i s) ∨
       (legal s.cur = false ∧ step s = .next (s.finish illegalOutcome)))) := by
  cases hp : s.phase with
  | idle =>
    cases hq : s.pending with
    | nil => exact .inl ⟨rfl, rfl, by simp only [step, State.fetch, State.serveHost, hp, hq]⟩
    | cons e es =>
      exact .inr (.inl ⟨e, es, rfl, rfl, by simp only [step, State.fetch, State.serveHost, hp, hq]⟩)
  | busy =>
    have run : s.fetch = some s.cur → (∃ i, decode s.cur = .ok i ∧ step s = exec i s) ∨
        (legal s.cur = false ∧ step s = .next (s.finish illegalOutcome)) := by
      intro hf
      unfold step
      rw [hf]
      cases hd : decode s.cur with
      | ok i => exact .inl ⟨i, rfl, by simp only [hd]⟩
      | error r => exact .inr ⟨by rw [legal, hd]; rfl, by simp only [hd]⟩
    cases hq : s.pending with
    | nil => exact .inr (.inr (.inr ⟨rfl, .inl rfl, run (by simp only [State.fetch, hp, hq])⟩))
    | cons e es =>
      by_cases hw : s.wait = 0
      · exact .inr (.inr (.inr ⟨rfl, .inr hw, run (by simp only [State.fetch, hp, hq, hw]; rfl)⟩))
      · refine .inr (.inr (.inl ⟨e, es, rfl, rfl, hw, ?_⟩))
        simp only [step, State.fetch, State.serveHost, hp, hq, if_neg hw]

/-- The parameters are hard-wired: no step changes them (10 R40, R41, R48). -/
theorem issue_params (s : State) (w : Word) : (s.issue w).params = s.params := by
  rcases issue_cases s w with ⟨-, h⟩ | ⟨-, -, h⟩ | ⟨-, -, h⟩ <;> rw [h] <;> rfl

theorem hostRead_params (s : State) (offset : Word) : (s.hostRead offset).2.params = s.params := by
  rcases hostRead_state s offset with h | h <;> rw [h]

theorem hostWrite_params (s : State) (offset v : Word) : (s.hostWrite offset v).params = s.params := by
  rcases hostWrite_cases s offset v with h | ⟨-, h⟩ | ⟨-, h | ⟨_, h⟩ | ⟨_, h⟩ | ⟨_, h⟩ | ⟨_, _, -, -, h⟩⟩ <;> rw [h]
  exact issue_params s v

end Sys2Proof.Machine
end

