-- ==== Sys2Proof/Tests/Slice0.lean ====
section
/-! SUPPORT. The model's own tests and, for every statement with hypotheses, a witness that meets them. Every expected
value is the spec's: an example of a rule, or a row of 95_test_vectors.md §2 named in the test's comment. -/

namespace Sys2Proof.Tests

open Sys2Proof.Machine

/-! ## Helpers -/

/-- The test-only magic of 00 R8. -/
def exampleMagic : Vector Byte 8 := #v[0x01#8, 0x23#8, 0x45#8, 0x67#8, 0x89#8, 0xAB#8, 0xCD#8, 0xEF#8]

/-- Test parameters: 64 input entries, 200 output entries. -/
def exampleParams (a : AutoTrunc) : Params := ⟨exampleMagic, 64, 200, a⟩

/-- IBUF holding `es` from entry `i` on. -/
def entriesFrom : (i : Nat) → List Nat → Memory
  | _, [] => []
  | i, e :: es => (i, BitVec.ofNat 12 e) :: entriesFrom (i + 1) es

/-- An idle block with CTRL `c`, MAX_LEN `m` and the input `es`. -/
def given (c : Ctrl) (m : Nat) (es : List Nat) : State :=
  { State.reset with
    params := exampleParams .hardFail
    ctrl := c
    maxLen := BitVec.ofNat 64 m
    inLen := BitVec.ofNat 32 es.length
    ibuf := entriesFrom 0 es }

/-- The same block in the middle of a command, `wait` accesses before its completion, with the accesses `es` to come. -/
def running (s : State) (w : Word) (wait : Nat) (es : List HostEvent) : State :=
  { s with phase := .busy, cur := w, wait := wait, lastCmd := w, pending := es }

/-- CTRL = 0. -/
def lenient : Ctrl := ⟨false, false⟩

/-- CTRL with ALLOW_PARTIAL only. -/
def partialOn : Ctrl := ⟨true, false⟩

/-- CTRL with STRICT_PADDING only. -/
def strictOn : Ctrl := ⟨false, true⟩

/-- MAX_LEN after reset. -/
def mib256 : Nat := 268435456

/-- STATUS, OBUF, DECL_LEN and HDR_LEN after a command, or nothing where it stops. -/
def seen : Host.Outcome State Fault Refusal → Option (Nat × List Nat × Nat × Nat)
  | .next t => some (t.statusWord.toNat, t.obuf.map BitVec.toNat, t.declLen.toNat, t.hdrLen.toNat)
  | _ => none

/-- The fault, if there is one. -/
def faultOf : Host.Outcome State Fault Refusal → Option Fault
  | .fault f => some f
  | _ => none

/-- "Hello". -/
def hello : List Nat := [0x48, 0x65, 0x6C, 0x6C, 0x6F]

/-- ENCODE.FRAMED of "Hello" (95 §2.3). -/
def helloFrame : List Nat := [0x009, 0x0D1, 0x2CF, 0x09A, 0x5E6, 0x7BC, 0x0A9, 0x065, 0x363, 0x31B, 0x600]

/-- The magic and the length byte 5. -/
def header5 : List Nat := [0x01, 0x23, 0x45, 0x67, 0x89, 0xAB, 0xCD, 0xEF, 0x05]

/-! ## WellFormed: an ill-formed term for each check, refused -/

theorem test_rsv_set_is_ill_formed : (⟨1#4, 0#2, 1#26⟩ : CommandFields).rsvOk = false := by decide
theorem test_op_zero_is_ill_formed : (⟨0#4, 0#2, 0#26⟩ : CommandFields).opOk = false := by decide
theorem test_op_four_is_ill_formed : (⟨4#4, 0#2, 0#26⟩ : CommandFields).opOk = false := by decide
theorem test_encode_sub_two_is_ill_formed : (⟨1#4, 2#2, 0#26⟩ : CommandFields).subOk = false := by decide
theorem test_decode_sub_three_is_ill_formed : (⟨2#4, 3#2, 0#26⟩ : CommandFields).subOk = false := by decide
theorem test_frame_sub_two_is_ill_formed : (⟨3#4, 2#2, 0#26⟩ : CommandFields).subOk = false := by decide
theorem test_half_word_access_is_ill_formed : (HostEvent.read 16 0x004#32).widthOk = false := by decide
theorem test_byte_write_is_ill_formed : (HostEvent.write 8 0x008#32 1#32).wellFormed = false := by decide
theorem test_unaligned_access_is_ill_formed : (HostEvent.write 32 0x006#32 0#32).alignedOk = false := by decide

/-! ## Decode: every word of 30 R93 written out bit by bit, RSV then SUB then OP -/

theorem test_decode_encode_raw : decode 0b00000000000000000000000000_00_0001#32 = .ok .encodeRaw := by decide
theorem test_decode_encode_framed : decode 0b00000000000000000000000000_01_0001#32 = .ok .encodeFramed := by decide
theorem test_decode_decode_raw : decode 0b00000000000000000000000000_00_0010#32 = .ok .decodeRaw := by decide
theorem test_decode_decode_framed : decode 0b00000000000000000000000000_01_0010#32 = .ok .decodeFramed := by decide
theorem test_decode_decode_auto : decode 0b00000000000000000000000000_10_0010#32 = .ok .decodeAuto := by decide
theorem test_decode_frame_wrap : decode 0b00000000000000000000000000_00_0011#32 = .ok .frameWrap := by decide
theorem test_decode_frame_unwrap : decode 0b00000000000000000000000000_01_0011#32 = .ok .frameUnwrap := by decide

/-- 95 §2.6: bit 31 set. -/
theorem test_decode_bit_31_set : decode 0x80000001#32 = .error .reservedBits := by decide

theorem test_decode_table_word : decodeTableWord 32 0x22 = some .decodeAuto ∧ decodeTableWord 32 0x32 = none := by decide

/-- A command placed for the host's question is the next one to run. -/
theorem test_placed_command_runs :
    seen (step ((given lenient mib256 [0xAA]).withFetchWord 32 0x01)) = some (0x00000002, [0x550], 0, 0) := by decide

/-! ## The commands -/

/-- 40 R137, 95 S2; bits 11:8 of the entry are ignored (30 R96). -/
theorem test_encode_raw_one_byte :
    seen (exec .encodeRaw (given lenient mib256 [0xFAA])) = some (0x00000002, [0x550], 0, 0) := by decide

/-- 95 §2.1. -/
theorem test_encode_raw_hello :
    seen (exec .encodeRaw (given lenient mib256 hello)) = some (0x00000002, [0x243, 0x15B, 0x0D8, 0x6F0], 0, 0) := by
  decide

/-- 42 R201, 95 S1. -/
theorem test_encode_framed_empty :
    seen (exec .encodeFramed (given lenient mib256 [])) =
      some (0x00000402, [0x009, 0x0D1, 0x2CF, 0x09A, 0x5E6, 0x7BC, 0x000], 0, 9) := by decide

/-- 95 §2.3; MAX_LEN is not checked. -/
theorem test_encode_framed_hello :
    seen (exec .encodeFramed (given lenient 0 hello)) = some (0x00000402, helloFrame, 5, 9) := by decide

/-- 95 S3. -/
theorem test_decode_raw_one_symbol :
    seen (exec .decodeRaw (given lenient mib256 [0x550])) = some (0x0000B802, [0xAA], 0, 0) := by decide

/-- 95 §2.2, STRICT_PADDING = 1. -/
theorem test_decode_raw_strict_padding :
    seen (exec .decodeRaw (given strictOn mib256 [0x7FF])) = some (0x0000B322, [0xFF], 0, 0) := by decide

/-- 95 §2.5 V-M, MAX_LEN = 5 passes. -/
theorem test_decode_framed_hello :
    seen (exec .decodeFramed (given lenient 5 helloFrame)) = some (0x00009C02, hello, 5, 9) := by decide

/-- 95 §2.5 V-V: an unreadable varint. -/
theorem test_decode_framed_unreadable_varint :
    seen (exec .decodeFramed (given lenient mib256 [0x009, 0x0D1, 0x2CF, 0x09A, 0x5E6, 0x7BE, 0x000])) =
      some (0x0000DB32, [], 0, 0) := by decide

/-- 43 R246 row 4, 95 §2.5 V-M. -/
theorem test_decode_auto_absurd_length :
    seen (exec .decodeAuto (given lenient 2 helloFrame)) =
      some (0x00009942, header5 ++ hello ++ [0x00], 5, 9) := by decide

/-- 43 R247, 95 §2.4: FALLBACK_RAW on a truncated frame. -/
theorem test_decode_auto_truncated_fallback :
    seen (exec .decodeAuto { given lenient mib256 (helloFrame.take 10) with params := exampleParams .fallbackRaw }) =
      some (0x0000E152, header5 ++ hello.take 4, 5, 9) := by decide

/-- 42 R202. -/
theorem test_frame_wrap_hi :
    seen (exec .frameWrap (given lenient mib256 [0x48, 0x69])) =
      some (0x00000402, [0x01, 0x23, 0x45, 0x67, 0x89, 0xAB, 0xCD, 0xEF, 0x02, 0x48, 0x69], 2, 9) := by decide

/-- 42 R204: ALLOW_PARTIAL = 1. -/
theorem test_frame_unwrap_truncated :
    seen (exec .frameUnwrap (given partialOn mib256
      [0x01, 0x23, 0x45, 0x67, 0x89, 0xAB, 0xCD, 0xEF, 0x03, 0x48, 0x69])) =
      some (0x00000652, [0x48, 0x69], 3, 9) := by decide

/-- 95 §2.3: a declared length of 200 above MAX_LEN = 100. -/
theorem test_frame_unwrap_absurd_length :
    seen (exec .frameUnwrap (given lenient 100
      [0x01, 0x23, 0x45, 0x67, 0x89, 0xAB, 0xCD, 0xEF, 0xC8, 0x01, 1, 2, 3, 4, 5, 6, 7, 8, 9, 10])) =
      some (0x00000342, [], 200, 10) := by decide

/-! ## Shared operations -/

/-- 40 R131's example. -/
theorem test_pack_step : packStep ⟨0b10110#18, 5#5⟩ 0xFF#8 = ([0x5BF#11], ⟨0b11#18, 2#5⟩) := by decide

/-- 40 R132's example. -/
theorem test_pack_flush : packFlush ⟨0xAA#18, 8#5⟩ = [0x550#11] := by decide

/-- 41 R161's example. -/
theorem test_unpack_step : unpackStep ⟨0#18, 0#5⟩ 0x550#11 = ([0xAA#8], ⟨0#18, 3#5⟩) := by decide

/-- 42 R190's example. -/
theorem test_venc_300 : venc 300 = [0xAC#8, 0x02#8] := by decide

/-- 42 R191's example. -/
theorem test_vdec_300 : vdec [0xAC#8, 0x02#8, 0x55#8] = some (300, 2) := by decide

/-- 42 R191: a non-minimal varint is accepted. -/
theorem test_vdec_non_minimal : vdec [0x80#8, 0x00#8] = some (0, 2) := by decide

/-- 42 R191: nine bytes FF and a tenth of 2 do not fit 64 bits. -/
theorem test_vdec_overflow : vdec (List.replicate 9 0xFF#8 ++ [0x02#8]) = none := by decide

/-! ## The host -/

/-- 95 §2.6: an illegal word, and a command over capacity. -/
theorem test_issue_illegal : ((given lenient mib256 []).hostWrite 0x000#32 0x32#32).statusWord = 0x362#32 := by decide

theorem test_issue_over_capacity :
    ({ given lenient mib256 [] with inLen := 65#32 }.hostWrite 0x000#32 2#32).statusWord = 0x372#32 := by decide

/-- 70 R336: a dropped write sets bit 2, and BUSY is bit 0. -/
theorem test_busy_write_is_dropped :
    ((running (given lenient mib256 []) 1#32 1 []).hostWrite 0x014#32 7#32).statusWord = 5#32 := by decide

/-- 10 R40 with the magic of 00 R8. -/
theorem test_magic_registers :
    ((given lenient mib256 []).hostRead 0x030#32).1 = 0x67452301#32 ∧
      ((given lenient mib256 []).hostRead 0x034#32).1 = 0xEFCDAB89#32 := by decide

/-! ## Witnesses: states and operands that meet the hypotheses of each statement, at the boundaries of its clauses -/

/-- An idle block with the input `es` and CTRL = 0. -/
def idleWith (es : List Nat) : State := given lenient mib256 es

/-- The outcome of a step or a command is a next state. -/
def isNext : Host.Outcome State Fault Refusal → Bool
  | .next _ => true
  | _ => false

theorem witness_DecodeOfEncode : Instr.decodeAuto.wellFormed = true ∧ Instr.frameUnwrap.wellFormed = true := by decide

/-- One illegal word of each group of 30 R94, at the ends of the groups. -/
theorem witness_LegalExactlySevenWords :
    (idleWith []).phase = .idle ∧
      [0x00#32, 0x40#32, 0xFFFFFFFF#32, 0x04#32, 0x0F#32, 0x21#32, 0x31#32, 0x32#32, 0x23#32, 0x33#32].all
        (fun w => !legal w) = true := by decide

theorem witness_IllegalWordCompletesAtOnce : (idleWith []).phase = .idle ∧ legal 0x32#32 = false := by decide

/-- Both ways to be the engine's turn: no event, or no access left to serve. -/
theorem witness_StepRunsDecodedCommand :
    (running (idleWith [0xAA]) 1#32 3 []).phase = .busy ∧ (running (idleWith [0xAA]) 1#32 3 []).pending = [] ∧
      (running (idleWith [0xAA]) 1#32 0 [.reset]).phase = .busy ∧
      (running (idleWith [0xAA]) 1#32 0 [.reset]).wait = 0 ∧
      decode (running (idleWith [0xAA]) 1#32 3 []).cur = .ok .encodeRaw ∧ Instr.encodeRaw.wellFormed = true := by decide

/-- The three clauses: idle with no event, idle with one, BUSY with one access left. -/
theorem witness_StepServesOldestEvent :
    ((idleWith []).phase = .idle ∧ (idleWith []).pending = []) ∧
      (let s : State := { idleWith [] with pending := [rd .status] }
       s.phase = .idle ∧ s.pending = rd .status :: []) ∧
      (running (idleWith []) 1#32 1 [rd .status]).phase = .busy ∧
      (running (idleWith []) 1#32 1 [rd .status]).pending = rd .status :: [] ∧
      0 < (running (idleWith []) 1#32 1 [rd .status]).wait := by decide

/-- IN_LEN = IBUF_DEPTH is in capacity. -/
theorem witness_IssueStartsCommand :
    (idleWith (List.replicate 64 0)).phase = .idle ∧ legal 0x22#32 = true ∧
      (idleWith (List.replicate 64 0)).inLen.toNat ≤ (idleWith (List.replicate 64 0)).params.ibufDepth := by decide

/-- IN_LEN = IBUF_DEPTH + 1 is over capacity. -/
theorem witness_CapacityCompletesAtOnce :
    (idleWith (List.replicate 65 0)).phase = .idle ∧ legal 0x22#32 = true ∧
      (idleWith (List.replicate 65 0)).params.ibufDepth < (idleWith (List.replicate 65 0)).inLen.toNat := by decide

/-- Both cases: the first and last offsets whose writes are dropped, and their neighbours. -/
theorem witness_BusyWritesAreDropped :
    (running (idleWith []) 1#32 1 []).params.wf ∧ (running (idleWith []) 1#32 1 []).busy = true ∧
      [0x000#32, 0x004#32, 0x014#32, 0x018#32, 0x40000000#32, 0x400000FC#32, 0x40000100#32].all
        (fun offset => offset.toNat % 4 == 0) = true := by decide

theorem witness_IdleConfigurationWrites : (idleWith []).phase = .idle := by decide

/-- The last IBUF entry. -/
theorem witness_IdleIbufWrite :
    (idleWith []).params.wf ∧ (idleWith []).phase = .idle ∧ 63 < (idleWith []).params.ibufDepth ∧
      (0x400000FC#32).toNat = 0x40000000 + 4 * 63 := by decide

/-- The first offset of each reserved place. -/
theorem witness_ReservedOffsetsReadZero :
    (idleWith []).params.wf ∧
      [0x040#32, 0x40000100#32, 0x80000320#32, 0xFFFFFFFC#32].all (fun offset =>
        offset.toNat % 4 = 0 ∧ 0x03C < offset.toNat ∧
          ¬(0x40000000 ≤ offset.toNat ∧ offset.toNat < 0x40000000 + 4 * (idleWith []).params.ibufDepth) ∧
          ¬(0x80000000 ≤ offset.toNat ∧ offset.toNat < 0x80000000 + 4 * (idleWith []).params.obufDepth)) = true := by decide

theorem witness_ReadOnlyWritesAreIgnored :
    (0x03C#32).toNat ∈ [0x004, 0x018, 0x01C, 0x020, 0x024, 0x028, 0x02C, 0x030, 0x034, 0x038, 0x03C] ∧
      0x80000000 ≤ (0x80000000#32).toNat := by decide

/-- Both clauses: a wrong width, a wrong offset, and the last offset inside the interface. -/
theorem witness_OutsideInterfaceIsRefused :
    16 ≠ 32 ∧ (0x001#32).toNat % 4 ≠ 0 ∧ (0xFFFFFFFC#32).toNat % 4 = 0 := by decide

theorem witness_StatusWordLayout : (idleWith []).phase = .idle := by decide

/-- Each clause of 70 R335: the result registers, the first and last OBUF entry, a written IBUF entry. -/
theorem witness_BusyReads :
    (running (idleWith [0x800]) 1#32 1 []).params.wf ∧ (running (idleWith [0x800]) 1#32 1 []).busy = true ∧
      (0x028#32).toNat ∈ [0x018, 0x01C, 0x020, 0x024, 0x028] ∧
      [0x80000000#32, 0x8000031C#32].all (fun offset => 0x80000000 ≤ offset.toNat ∧
        offset.toNat < 0x80000000 + 4 * (running (idleWith [0x800]) 1#32 1 []).params.obufDepth) = true ∧
      0 < (running (idleWith [0x800]) 1#32 1 []).params.ibufDepth ∧
      (running (idleWith [0x800]) 1#32 1 []).ibuf.read 0 = some 0x800#12 ∧
      (0x40000000#32).toNat = 0x40000000 + 4 * 0 := by decide

theorem witness_HardwiredRegisters : (idleWith []).params.wf ∧ step (idleWith []) = .next (idleWith []) :=
  ⟨by decide, rfl⟩

/-- The state after FRAME.WRAP of no byte: nine OBUF entries. -/
def afterWrap : State :=
  { idleWith [] with
    obuf := [0x01#16, 0x23#16, 0x45#16, 0x67#16, 0x89#16, 0xAB#16, 0xCD#16, 0xEF#16, 0x00#16]
    outLen := 9#32
    hdrLen := 9#32
    cur := Config.idleCur 0
    inIndex := Config.idleInIndex 0
    outIndex := Config.idleOutIndex 0
    draws := 1
    status := ⟨true, false, .noDefect, .accept, true, false, 0#3, false⟩ }

theorem test_after_wrap : exec .frameWrap (idleWith []) = .next afterWrap := rfl

theorem test_after_wrap_results : afterWrap.ResultInv :=
  ⟨rfl, by decide, by simp [afterWrap], by decide, by decide +kernel, by decide +kernel,
    by decide, by decide, by decide +kernel, by decide +kernel, by decide +kernel, by decide +kernel⟩

/-- The last entry below OUT_LEN. -/
theorem witness_ResultsReadBack :
    afterWrap.params.wf ∧ afterWrap.ResultInv ∧ afterWrap.phase = .idle ∧ 8 < afterWrap.outLen.toNat ∧
      (0x80000020#32).toNat = 0x80000000 + 4 * 8 :=
  ⟨by decide, test_after_wrap_results, by decide, by decide +kernel, by decide +kernel⟩

/-- The first entry at OUT_LEN, and an IBUF entry never written. -/
theorem witness_UnwrittenEntriesReadFree :
    afterWrap.params.wf ∧ afterWrap.phase = .idle ∧ afterWrap.outLen.toNat ≤ 9 ∧ 9 < afterWrap.params.obufDepth ∧
      (0x80000024#32).toNat = 0x80000000 + 4 * 9 ∧ afterWrap.ibuf.read 9 = none ∧
      9 < afterWrap.params.ibufDepth ∧ (0x40000024#32).toNat = 0x40000000 + 4 * 9 := by decide

theorem witness_ResultsStableUntilIssue :
    let s : State := { afterWrap with pending := [wr .inLen 1#32] }
    s.phase = .idle ∧ s.pending = wr .inLen 1#32 :: [] ∧ wr .inLen 1#32 ≠ .reset ∧
      (∀ width v, wr .inLen 1#32 ≠ .write width 0x000#32 v) ∧ isNext (step s) = true :=
  ⟨by decide, by decide, by decide +kernel, fun _ _ h => by simp [wr, Reg.offset] at h, by decide +kernel⟩

/-- The OBUF clause at its first and last offset. -/
theorem witness_ResetValues :
    (idleWith []).params.wf ∧ [0x80000000#32, 0x8000031C#32].all (fun offset =>
      0x80000000 ≤ offset.toNat ∧ offset.toNat < 0x80000000 + 4 * (idleWith []).params.obufDepth) = true := by decide

theorem witness_StepKeepsInv :
    (running (idleWith [0xAA]) 1#32 0 []).Inv ∧ isNext (step (running (idleWith [0xAA]) 1#32 0 [])) = true :=
  ⟨⟨by decide, by decide, by decide +kernel, by decide +kernel, by decide⟩, by decide +kernel⟩

theorem witness_StepKeepsResultInv :
    (running (idleWith [0xAA]) 1#32 0 []).Inv ∧ (running (idleWith [0xAA]) 1#32 0 []).ResultInv ∧
      isNext (step (running (idleWith [0xAA]) 1#32 0 [])) = true :=
  ⟨witness_StepKeepsInv.1, ⟨rfl, by decide, by simp [running, idleWith, given, State.reset], by decide, by decide +kernel,
    by decide, by decide, by decide +kernel, by decide +kernel, by decide +kernel, by decide +kernel, by decide +kernel⟩,
    witness_StepKeepsInv.2⟩

theorem witness_CommandsKeepConfiguration : exec .frameWrap (idleWith []) = .next afterWrap := test_after_wrap

/-- A command, an illegal word, and IN_LEN one above IBUF_DEPTH. -/
theorem witness_CompletionFreesSequencer :
    exec .frameWrap (idleWith []) = .next afterWrap ∧ (idleWith []).phase = .idle ∧ legal 0x32#32 = false ∧
      (idleWith (List.replicate 65 0)).phase = .idle ∧
      (idleWith (List.replicate 65 0)).params.ibufDepth < (idleWith (List.replicate 65 0)).inLen.toNat :=
  ⟨test_after_wrap, by decide⟩

/-- An access outside the interface, and a CMD write that starts a command. -/
theorem witness_IdleSequencerIsUnobservable :
    (idleWith []).phase = .idle ∧
      step { idleWith [] with pending := [.read 8 0x004#32] } = .refused (.outsideInterface 8 0x004#32) ∧
      isNext (step { idleWith [] with pending := [wr .cmd 1#32] }) = true := by
  refine ⟨by decide, rfl, by decide +kernel⟩

/-- Two states that differ in the results, the pending accesses and an entry above IN_LEN. -/
theorem witness_SameOperandsSameOutcome :
    let s := idleWith [0xAA]
    let u : State := { s with ibuf := [(0, 0x0AA#12), (1, 0x123#12)], outLen := 5#32, pending := [.reset] }
    u.params = s.params ∧ u.ctrl = s.ctrl ∧ u.maxLen = s.maxLen ∧ u.inLen = s.inLen ∧
      (∀ k < s.inLen.toNat, u.ibuf.read k = s.ibuf.read k) ∧ isNext (exec .encodeRaw s) = true := by decide

/-- A command with the input, CTRL and MAX_LEN it runs on. -/
def runs : List (Instr × Ctrl × Nat × List Nat) :=
  [(.decodeRaw, lenient, mib256, [0x550]), (.decodeRaw, lenient, mib256, [0x243, 0x15B, 0x800, 0x0D8]),
    (.decodeAuto, strictOn, mib256, [0x7FF]), (.decodeFramed, lenient, mib256, [0x550]),
    (.decodeFramed, lenient, 2, helloFrame), (.decodeFramed, partialOn, mib256, helloFrame.take 10),
    (.decodeAuto, lenient, mib256, helloFrame.take 10)]

/-- One run for each CODE a command can report, and for each result of a truncation: the STATUS words (95 §2.2 to
§2.5). -/
theorem witness_SeverityByMode :
    runs.map (fun r => (seen (exec r.1 (given r.2.1 r.2.2.1 r.2.2.2))).map Prod.fst) =
      [some 0x0000B802, some 0x00000312, some 0x0000B322, some 0x0000BB32, some 0x00009B42, some 0x0000E652,
        some 0x0000E752] := by decide

/-- A state that is ready, with IN_LEN = IBUF_DEPTH: for the results of the four commands over bytes. -/
theorem witness_ready_at_capacity : (idleWith (List.replicate 64 0xFFF)).ready := by decide

theorem witness_EncodeRawResult : (idleWith hello).ready ∧ (idleWith []).ready := by decide

theorem witness_EncodeFramedResult : (given lenient 0 hello).ready := by decide

theorem witness_FrameWrapResult : (given lenient 0 hello).ready := by decide

/-- One state for each end of the chain of 42 R195 to R203: no magic, no varint, absurd (MAX_LEN one below), truncated
by one byte with and without partial results, and exact (MAX_LEN equal). -/
def unwrapStates : List State :=
  [idleWith (header5.take 7), idleWith (header5.take 8), given lenient 4 (header5 ++ hello),
    given partialOn 5 (header5 ++ hello.take 4), given lenient 5 (header5 ++ hello.take 4),
    given lenient 5 (header5 ++ hello)]

theorem witness_FrameUnwrapResult :
    (∀ s ∈ unwrapStates, s.ready) ∧
      unwrapStates.map (fun s => (seen (exec .frameUnwrap s)).map Prod.fst) =
        [some 0x00000332, some 0x00000332, some 0x00000342, some 0x00000652, some 0x00000752, some 0x00000402] := by
  decide

/-- Both clauses: strict padding over leftover bits that are not zero, and not. -/
theorem witness_DecodeRawResult :
    (given strictOn mib256 [0x7FF]).ready ∧ (given strictOn mib256 [0x7FF]).noneAbsent ∧
      (unpack (given strictOn mib256 [0x7FF]).inputSymbols).padClean = false ∧
      (idleWith [0x7FF]).ready ∧ (idleWith [0x7FF]).noneAbsent := by decide

/-- Both clauses of the prologue, and inputs for each end of the chain. -/
theorem witness_DecodeFramedResult :
    (given strictOn mib256 (helloFrame.take 10)).ready ∧ (given strictOn mib256 (helloFrame.take 10)).noneAbsent ∧
      (unpack (given strictOn mib256 (helloFrame.take 10)).inputSymbols).padClean = false ∧
      (idleWith [0x550]).ready ∧ (idleWith [0x550]).noneAbsent ∧
      (given lenient 5 helloFrame).ready ∧ (given lenient 5 helloFrame).noneAbsent ∧
      (given lenient 4 helloFrame).ready ∧ (given lenient 4 helloFrame).noneAbsent ∧
      (given partialOn 5 (helloFrame.take 10)).ready ∧ (given partialOn 5 (helloFrame.take 10)).noneAbsent := by decide

/-- Both clauses of the prologue, and inputs for rows 1 to 6 of 43 R246. -/
theorem witness_DecodeAutoResult :
    (given strictOn mib256 [0x7FF]).ready ∧ (given strictOn mib256 [0x7FF]).noneAbsent ∧
      (unpack (given strictOn mib256 [0x7FF]).inputSymbols).padClean = false ∧
      ∀ s ∈ [idleWith [0x550], given lenient 5 helloFrame, idleWith (helloFrame.take 6), given lenient 4 helloFrame,
        given partialOn 5 (helloFrame.take 10), given lenient 5 (helloFrame.take 10)], s.ready ∧ s.noneAbsent := by
  decide

/-- The first and the last entry absent. -/
theorem witness_AbsentTokenIsBadWord :
    (idleWith [0x800, 0x001]).ready ∧ (idleWith [0x800, 0x001]).firstAbsent 0 ∧
      (idleWith [0x7FF, 0xFFF]).ready ∧ (idleWith [0x7FF, 0xFFF]).firstAbsent 1 := by decide

/-- An unwritten entry after an absent one and after nothing, and an input that is all written. -/
theorem witness_UnwrittenInputFaults :
    ({ idleWith [0x800] with inLen := 2#32 } : State).firstUnwritten 1 ∧
      ({ idleWith [] with inLen := 1#32 } : State).firstUnwritten 0 ∧ (idleWith [0x800]).inputWritten := by decide

/-- 20 R66, 70 R340: the model's fault, also where an absent entry stands below the unwritten one. -/
theorem test_unwritten_input :
    faultOf (exec .encodeRaw { idleWith [0x7FF] with inLen := 2#32 }) = some (.unwrittenInput 1) ∧
      faultOf (exec .decodeRaw { idleWith [0x800] with inLen := 2#32 }) = some (.unwrittenInput 1) := by decide

/-- 10 valid bits, the most there are between two bytes. -/
theorem witness_PackStepMovesBits : (1023#18).toNat < 2 ^ (10#5).toNat ∧ (10#5).toNat ≤ 10 := by decide

/-- 4, 5 and 7 valid bits: one byte or two bytes emitted. -/
theorem witness_UnpackStepMovesBits :
    (15#18).toNat < 2 ^ (4#5).toNat ∧ (31#18).toNat < 2 ^ (5#5).toNat ∧ (127#18).toNat < 2 ^ (7#5).toNat ∧
      (7#5).toNat ≤ 7 := by decide

/-- The padding clause: ten zero bytes leave 8 padding bits. -/
theorem witness_PackClosedForm :
    8 * (List.replicate 10 0#8).length ≤ 80 ∧ 80 < 11 * (pack (List.replicate 10 0#8)).length := by decide

theorem witness_VarintEncoderIsMinimal : 1 < (venc 128).length ∧ 0 < (venc 127).length := by decide

/-- The largest length the decoder reads. -/
theorem witness_VarintRoundTrip :
    18446744073709551615 < 2 ^ 64 ∧
      vdec (List.replicate 9 0xFF#8 ++ [0x01#8]) = some (18446744073709551615, 10) := by decide

/-- ENCODE.FRAMED of "Hello" and a block that holds its result with MAX_LEN equal to the length. -/
theorem witness_FramedRoundTrip :
    (idleWith hello).ready ∧ (given strictOn 5 helloFrame).ready ∧
      (given strictOn 5 helloFrame).params.magic = (idleWith hello).params.magic ∧
      (given strictOn 5 helloFrame).holdsEntries (helloFrame.map (BitVec.ofNat 16)) ∧
      (idleWith hello).inLen.toNat ≤ (given strictOn 5 helloFrame).maxLen.toNat := by decide

theorem witness_RawRoundTrip :
    (idleWith hello).ready ∧ (given strictOn 5 [0x243, 0x15B, 0x0D8, 0x6F0]).ready ∧
      (given strictOn 5 [0x243, 0x15B, 0x0D8, 0x6F0]).holdsEntries [0x243#16, 0x15B#16, 0x0D8#16, 0x6F0#16] := by decide

/-- The last `removed` words gone, with CTRL `c` (95 §2.4). -/
def cutHello (c : Ctrl) (removed : Nat) : State := given c 5 (helloFrame.take (11 - removed))

/-- Each clause at its boundary: 4 removed (the header just survives) with and without partial results, 5 removed (8
bytes left), 6 and 10 removed (fewer than 8), and 1 removed with strict padding over leftover bits that are not zero. -/
theorem witness_TruncationByRemovedWords :
    (∀ removed ∈ [1, 4, 5, 6, 10], 0 < removed ∧ removed < 11 ∧
      ∀ c ∈ [lenient, partialOn, strictOn], (cutHello c removed).ready ∧
        (cutHello c removed).holdsEntries ((helloFrame.map (BitVec.ofNat 16)).take (11 - removed)) ∧
        5 ≤ (cutHello c removed).maxLen.toNat) ∧
    9 ≤ 11 * (11 - 4) / 8 ∧ 11 * (11 - 5) / 8 < 9 ∧ 8 ≤ 11 * (11 - 5) / 8 ∧ 11 * (11 - 6) / 8 < 8 ∧
    strictOn.strictPadding = true ∧ 8 * 13 ≤ 105 ∧ 105 < 11 * (cutHello strictOn 1).inLen.toNat ∧
    symbolBit (cutHello strictOn 1).inputSymbols 105 = true := by decide

/-- Junk that leaves non-zero bits with CTRL = 0, and junk that leaves zero bits with STRICT_PADDING = 1. -/
theorem witness_TrailingJunkIsIgnored :
    (given lenient 5 (helloFrame ++ [0x7FF])).ready ∧
      (given lenient 5 (helloFrame ++ [0x7FF])).holdsEntries
        (helloFrame.map (BitVec.ofNat 16) ++ symbolData [0x7FF#11]) ∧
      (given strictOn 5 (helloFrame ++ [0x091, 0x500])).ready ∧
      (given strictOn 5 (helloFrame ++ [0x091, 0x500])).holdsEntries
        (helloFrame.map (BitVec.ofNat 16) ++ symbolData [0x091#11, 0x500#11]) ∧
      ∀ k < 11 * 13, 8 * (11 * 13 / 8) ≤ k →
        symbolBit (given strictOn 5 (helloFrame ++ [0x091, 0x500])).inputSymbols k = false := by decide

/-- MAX_LEN one below the length. -/
theorem witness_CeilingBelowDeclaredLength :
    (idleWith hello).ready ∧ (given strictOn 4 helloFrame).ready ∧
      (given strictOn 4 helloFrame).holdsEntries (helloFrame.map (BitVec.ofNat 16)) ∧
      (given strictOn 4 helloFrame).maxLen.toNat < (idleWith hello).inLen.toNat := by decide

theorem witness_BusyAccessKeepsCommand :
    (running (idleWith []) 1#32 1 [wr .cmd 2#32]).phase = .busy ∧
      (running (idleWith []) 1#32 1 [wr .cmd 2#32]).pending = wr .cmd 2#32 :: [] ∧
      0 < (running (idleWith []) 1#32 1 [wr .cmd 2#32]).wait ∧
      (wr .cmd 2#32).wellFormed = true ∧ wr .cmd 2#32 ≠ .reset := by decide

theorem witness_EveryCommandCompletes :
    (running (idleWith hello) 1#32 2 [wr .cmd 2#32, rd .status]).phase = .busy ∧
      (running (idleWith hello) 1#32 2 [wr .cmd 2#32, rd .status]).inputWritten ∧
      ∀ e ∈ (running (idleWith hello) 1#32 2 [wr .cmd 2#32, rd .status]).pending,
        e.wellFormed = true ∧ e ≠ .reset := by decide

end Sys2Proof.Tests
end

/-! SUPPORT. What a step answers, inverted for the step lemmas of both invariants. -/

namespace Sys2Proof.Machine

/-- All the states one event can lead to: a write's, a read's, or RESET's. -/
theorem performEvent_next {s t : State} {e : HostEvent} (h : s.performEvent e = .next t) :
    (∃ offset v, t = s.hostWrite offset v) ∨ (∃ draws replies, t = { s with draws := draws, replies := replies }) ∨
      t = s.applyReset := by
  rcases performEvent_cases s e with
    ⟨-, _, _, he⟩ | ⟨-, ⟨_, offset, v, -, he⟩ | ⟨_, offset, -, he⟩ | ⟨-, he⟩⟩ <;> rw [he] at h <;> cases h
  · exact .inl ⟨offset, v, rfl⟩
  · rcases hostRead_state s offset with hr | hr <;> rw [hr] <;> exact .inr (.inl ⟨_, _, rfl⟩)
  · exact .inr (.inr rfl)

/-- All the states one step can lead to: the same state, that of an event, or the completion of the command in CUR. -/
theorem step_next {s t : State} (h : step s = .next t) :
    t = s ∨
    (∃ e es wait, ({ s with pending := es, wait := wait } : State).performEvent e = .next t) ∨
    (s.phase = .busy ∧ ((∃ i, exec i s = .next t) ∨ t = s.finish illegalOutcome)) := by
  rcases step_cases s with ⟨-, -, hs⟩ | ⟨e, es, -, -, hs⟩ | ⟨e, es, -, -, -, hs⟩ | ⟨hb, -, ⟨i, -, hs⟩ | ⟨-, hs⟩⟩ <;>
    rw [hs] at h
  · cases h; exact .inl rfl
  · exact .inr (.inl ⟨e, es, s.wait, h⟩)
  · exact .inr (.inl ⟨e, es, s.wait - 1, h⟩)
  · exact .inr (.inr ⟨hb, .inl ⟨i, h⟩⟩)
  · cases h; exact .inr (.inr ⟨hb, .inr rfl⟩)

/-- A command's next state is its input's completion. -/
theorem withInput_next {s t : State} {f : List InEntry → CmdOutcome} (h : withInput s f = .next t) :
    ∃ es : List InEntry, es.length = s.inLen.toNat ∧ t = s.finish (f es) := by
  rcases withInput_cases s f with ⟨es, hin, he⟩ | ⟨_, -, he⟩ <;> rw [he] at h <;> cases h
  exact ⟨es, ((readEntries_ok_iff (i := 0)).1 hin).1, rfl⟩

theorem withBytes_next {s t : State} {f : List Byte → CmdOutcome} (h : withBytes s f = .next t) :
    ∃ bs : List Byte, bs.length = s.inLen.toNat ∧ t = s.finish (f bs) := by
  obtain ⟨es, hl, ht⟩ := withInput_next h
  exact ⟨es.map entryByte, by simpa using hl, ht⟩

end Sys2Proof.Machine

/-! SUPPORT. Every operation of a step keeps `State.Inv` (spec 00 R9, R10; 10 R24, R43, R45; 20 R62, R66). -/

namespace Sys2Proof.Machine

/-- All that `State.Inv` reads of a state: CTRL, MAX_LEN, IGNORED_WRITE, the results and the model's own fields do not
matter. -/
theorem State.Inv.congr {s t : State} (h : s.Inv) (hparams : t.params = s.params) (hibuf : t.ibuf = s.ibuf)
    (hacc : t.accumulator = s.accumulator)
    (hrun : (t.phase, t.cur, t.lastCmd, t.inLen, t.status.done) = (s.phase, s.cur, s.lastCmd, s.inLen, s.status.done)) :
    t.Inv := by
  simp only [Prod.mk.injEq] at hrun
  obtain ⟨hphase, hcur, hlast, hin, hdone⟩ := hrun
  constructor
  case paramsWf => exact hparams ▸ h.paramsWf
  case ibufWf => exact hibuf ▸ h.ibufWf
  case ibufInRange => rw [hparams, hibuf]; exact h.ibufInRange
  case accumulatorClear => exact hacc.trans h.accumulatorClear
  case busyLegal => rw [hphase, hcur, hlast, hin, hdone, hparams]; exact h.busyLegal

/-- Completion leaves the block idle, so only the parameters and IBUF matter. -/
theorem finish_inv {s : State} (hp : s.params.wf) (hw : s.ibuf.wf) (hr : ∀ e ∈ s.ibuf, e.1 < s.params.ibufDepth)
    (o : CmdOutcome) : (s.finish o).Inv :=
  ⟨hp, hw, hr, rfl, nofun⟩

theorem applyReset_inv {s : State} (hp : s.params.wf) : s.applyReset.Inv :=
  ⟨hp, reset_ibuf_wf, by simp, rfl, nofun⟩

/-- Issue lets into CUR only a legal, in-capacity word, and clears DONE (10 R45). -/
theorem issue_inv {s : State} (h : s.Inv) (w : Word) : (s.issue w).Inv := by
  rcases issue_cases s w with ⟨-, hi⟩ | ⟨-, -, hi⟩ | ⟨hl, hc, hi⟩ <;> rw [hi]
  · refine finish_inv ?_ ?_ ?_ _
    exacts [h.paramsWf, h.ibufWf, h.ibufInRange]
  · refine finish_inv ?_ ?_ ?_ _
    exacts [h.paramsWf, h.ibufWf, h.ibufInRange]
  · exact ⟨h.paramsWf, h.ibufWf, h.ibufInRange, rfl, fun _ => ⟨hl, rfl, hc, rfl⟩⟩

theorem hostWrite_inv {s : State} (h : s.Inv) (offset v : Word) : (s.hostWrite offset v).Inv := by
  rcases hostWrite_cases s offset v with
    hw | ⟨-, hw⟩ | ⟨hb, hw | ⟨_, hw⟩ | ⟨_, hw⟩ | ⟨n, hw⟩ | ⟨i, e, -, hi, hw⟩⟩ <;> rw [hw]
  · exact h
  · exact h.congr rfl rfl rfl rfl
  · exact issue_inv h v
  · exact h.congr rfl rfl rfl rfl
  · exact h.congr rfl rfl rfl rfl
  · -- IN_LEN is written only while idle, so no running command sees it move
    refine ⟨h.paramsWf, h.ibufWf, h.ibufInRange, h.accumulatorClear, fun hbusy => ?_⟩
    rw [(not_busy_iff s).1 hb] at hbusy
    cases hbusy
  · refine ⟨h.paramsWf, Memory.write_wf i e h.ibufWf, fun x hx => ?_, h.accumulatorClear, h.busyLegal⟩
    rcases Memory.mem_write hx with hxi | hx
    · exact hxi ▸ hi
    · exact h.ibufInRange x hx

theorem performEvent_inv {s t : State} {e : HostEvent} (h : s.Inv) (he : s.performEvent e = .next t) : t.Inv := by
  rcases performEvent_next he with ⟨offset, v, rfl⟩ | ⟨draws, replies, rfl⟩ | rfl
  · exact hostWrite_inv h offset v
  · exact h.congr rfl rfl rfl rfl
  · exact applyReset_inv h.paramsWf

theorem exec_inv {i : Instr} {s t : State} (h : s.Inv) (he : exec i s = .next t) : t.Inv := by
  rcases exec_cases i s with ⟨o, ho⟩ | ⟨k, hk⟩
  · rw [ho] at he
    cases he
    exact finish_inv h.paramsWf h.ibufWf h.ibufInRange o
  · rw [hk] at he
    cases he

/-- Settles O27, by the branches of the step: each operation keeps the invariant. -/
theorem stepKeepsInv : Obligations.StepKeepsInv := by
  intro s t h hs
  rcases step_next hs with rfl | ⟨e, es, wait, he⟩ | ⟨-, ⟨i, he⟩ | rfl⟩
  · exact h
  · refine performEvent_inv ?_ he
    exact h.congr rfl rfl rfl rfl
  · exact exec_inv h he
  · exact finish_inv h.paramsWf h.ibufWf h.ibufInRange _

end Sys2Proof.Machine

/-! SUPPORT. How long the framer's and the packer's results are (spec 30 R102, 40 R134, 41 R163, 42 R190, R191). -/

namespace Sys2Proof.Machine

theorem pack_length_le (bs : List Byte) : (pack bs).length ≤ (8 * bs.length + 10) / 11 := by
  obtain ⟨p, hp, h⟩ := pack_bits bs
  have hl := congrArg List.length h
  simp only [List.length_append, symbolBits_length, byteBits_length, List.length_replicate] at hl
  omega

theorem unpack_length_le (vs : List Symbol) : (unpack vs).bytes.length ≤ 11 * vs.length / 8 := by
  obtain ⟨pad, h, -⟩ := unpack_bits vs
  have hl := congrArg List.length h
  simp only [List.length_append, symbolBits_length, byteBits_length] at hl
  omega

theorem vencLoop_length_pos (fuel len : Nat) : 1 ≤ (vencLoop fuel len).length := by
  unfold vencLoop
  split
  · simp
  · split <;> simp

/-- `k + 1` groups of 7 bits hold a length below 2^(7(k+1)). -/
theorem vencLoop_length_le {k fuel len : Nat} (h : len < 128 ^ (k + 1)) : (vencLoop fuel len).length ≤ k + 1 := by
  induction k generalizing fuel len with
  | zero => simp [vencLoop_last (fuel := fuel) (show len < 0x80 by omega)]
  | succ k ih =>
    cases fuel with
    | zero => simp [vencLoop]
    | succ fuel =>
      rcases Nat.lt_or_ge len 0x80 with hlt | hge
      · simp [vencLoop_last (fuel := fuel + 1) hlt]
      · have hshift : len >>> 7 < 128 ^ (k + 1) := by
          rw [Nat.shiftRight_eq_div_pow]
          rw [pow_succ] at h
          omega
        rw [vencLoop_more hge, List.length_cons]
        exact Nat.succ_le_succ (ih hshift)

/-- A frame's header is 9 to 13 bytes for every payload IBUF can hold (00 R10). -/
theorem wrapHdrLen_bounds {len : Nat} (h : len ≤ 2 ^ 28) : 9 ≤ wrapHdrLen len ∧ wrapHdrLen len ≤ 13 := by
  have hpos : 1 ≤ (venc len).length := vencLoop_length_pos len len
  have hle : (venc len).length ≤ 5 := vencLoop_length_le (k := 4) (by omega)
  unfold wrapHdrLen Config.magicLen
  omega

/-- The decoder reads at least one byte and at most ten. -/
theorem vdecLoop_count_bounds {bs : List Byte} {i x sh len n : Nat} (hi : i ≤ 10)
    (h : vdecLoop bs i x sh = some (len, n)) : i < n ∧ n ≤ 10 := by
  induction bs generalizing i x sh with
  | nil => simp at h
  | cons b bs ih =>
    unfold vdecLoop Config.varintMaxBytes at h
    split at h
    · cases h
    · split at h
      · split at h
        · cases h
        · cases h
          omega
      · have := ih (by omega) h
        omega

/-- HDR_LEN of a frame that was read (30 R102). -/
abbrev headerLength (hdr : Nat) : Prop := 9 ≤ hdr ∧ hdr ≤ 18

theorem headerLength_of_vdec {bs : List Byte} {len n : Nat} (h : vdec bs = some (len, n)) : headerLength (8 + n) := by
  have := vdecLoop_count_bounds (by omega) h
  constructor <;> omega

/-- The data of an unwrap are at most `n` bytes and its header is a header's length. -/
def FrameResult.Within (n : Nat) : FrameResult → Prop
  | .ok payload _ hdr => payload.length ≤ n ∧ headerLength hdr
  | .badHeader => True
  | .absurd _ hdr => headerLength hdr
  | .truncated available _ hdr => available.length ≤ n ∧ headerLength hdr

theorem unwrap_within (p : Params) (maxLen : Nat) (u : List Byte) : (unwrap p maxLen u).Within u.length := by
  rcases unwrap_cases p maxLen u with
    ⟨-, h⟩ | ⟨-, -, h⟩ | ⟨len, n, -, hv, ⟨-, h⟩ | ⟨-, -, h⟩ | ⟨-, -, h⟩⟩ <;> rw [h]
  · trivial
  · trivial
  · exact headerLength_of_vdec hv
  · exact ⟨by simp, headerLength_of_vdec hv⟩
  · exact ⟨by simp only [List.length_take, List.length_drop]; omega, headerLength_of_vdec hv⟩

end Sys2Proof.Machine

/-! SUPPORT. What every outcome of the block satisfies, whichever rule built it, and what `State.ResultInv` asks of a
state in terms of the outcome it shows (spec 10 R28 to R38, 30 R98, 60 R299, R303). -/

namespace Sys2Proof.Machine

/-- The data fit OBUF and are bytes or symbols (10 R47, 30 R98). -/
structure Storable (p : Params) (data : List OutEntry) : Prop where
  fits : data.length ≤ p.obufDepth
  entries : ∀ e ∈ data, e.toNat < 2048

theorem storable_nil (p : Params) : Storable p [] := ⟨Nat.zero_le _, nofun⟩

theorem storable_bytes {p : Params} {bs : List Byte} (h : bs.length ≤ p.obufDepth) :
    Storable p (bs.map byteEntry) := by
  refine ⟨by simpa using h, fun e he => ?_⟩
  obtain ⟨b, -, rfl⟩ := List.mem_map.1 he
  have := b.isLt
  simp only [byteEntry, BitVec.truncate_eq_setWidth, BitVec.toNat_setWidth]
  omega

theorem storable_symbols {p : Params} {vs : List Symbol} (h : vs.length ≤ p.obufDepth) :
    Storable p (vs.map symbolEntry) := by
  refine ⟨by simpa using h, fun e he => ?_⟩
  obtain ⟨v, -, rfl⟩ := List.mem_map.1 he
  have := v.isLt
  simp only [symbolEntry, BitVec.truncate_eq_setWidth, BitVec.toNat_setWidth]
  omega

/-- `State.ResultInv` as a property of the outcome that completion writes. -/
structure CmdOutcome.Sound (p : Params) (o : CmdOutcome) : Prop where
  data : Storable p o.data
  acceptIffNoDefect : o.result = .accept ↔ o.code = .noDefect
  fallback : o.result = .fallbackRaw → o.unpacked = true ∧ o.framed = false ∧
    (o.code = .badHeader ∨ o.code = .absurdLength ∨ o.code = .truncated ∧ p.autoTrunc = .fallbackRaw)
  partialFramed : o.result = .partialAccept → o.code = .truncated ∧ o.framed = true
  hardFailNoData : o.result = .hardFail → o.code ≠ .badPadding → o.data = []
  padding : o.unpacked = false → o.padClean = false ∧ o.padCount = 0#3
  badPadding : o.code = .badPadding → o.unpacked = true ∧ o.padClean = false
  badWordPos : o.badwordPos ≠ 0#32 → o.code = .badWord
  noFrameFields : o.framed = false → o.code ≠ .absurdLength → o.code ≠ .truncated →
    o.declLen = 0#64 ∧ o.hdrLen = 0#32
  frameFields : o.framed = true ∨ o.code = .absurdLength ∨ o.code = .truncated → headerLength o.hdrLen.toNat

/-- The state invariant is soundness of the outcome the state shows, and OUT_LEN its number of entries. -/
theorem resultInv_iff (s : State) :
    s.ResultInv ↔ s.outcome.Sound s.params ∧ s.obuf.length = s.outLen.toNat := by
  have hempty : s.obuf.length = s.outLen.toNat → (s.obuf = [] ↔ s.outLen = 0#32) := fun hlen => by
    rw [← List.length_eq_zero_iff, hlen, BitVec.toNat_eq]
    rfl
  constructor
  · intro h
    exact ⟨⟨⟨h.fits, h.entries⟩, h.acceptIffNoDefect, h.fallback, h.partialFramed,
      fun hr hc => (hempty h.outLen).2 (h.hardFailNoData hr hc), h.padding, h.badPadding, h.badWordPos,
      h.noFrameFields, h.frameFields⟩, h.outLen⟩
  · rintro ⟨h, hlen⟩
    exact ⟨hlen, h.data.fits, h.data.entries, h.acceptIffNoDefect, h.fallback, h.partialFramed,
      fun hr hc => (hempty hlen).1 (h.hardFailNoData hr hc), h.padding, h.badPadding, h.badWordPos,
      h.noFrameFields, h.frameFields⟩

/-- States that show the same outcome meet the invariant together: DONE, IGNORED_WRITE, the configuration and the
sequencer do not matter. -/
theorem State.ResultInv.congr {s t : State} (h : s.ResultInv) (hp : t.params = s.params) (ho : t.outcome = s.outcome)
    (hl : t.outLen = s.outLen) : t.ResultInv := by
  rw [resultInv_iff] at h ⊢
  have hobuf : t.obuf = s.obuf := congrArg CmdOutcome.data ho
  rwa [hp, ho, hobuf, hl]

/-- Completion with a sound outcome (10 R47). -/
theorem finish_resultInv {s : State} {o : CmdOutcome} (hp : s.params.wf) (ho : o.Sound s.params) :
    (s.finish o).ResultInv := by
  refine (resultInv_iff _).2 ⟨ho, ?_⟩
  obtain ⟨-, -, -, hdepth⟩ := hp
  have hfits := ho.data.fits
  simp only [finish_obuf, finish_outLen, BitVec.toNat_ofNat]
  omega

end Sys2Proof.Machine

/-! SUPPORT. Every outcome the rules build is sound, shape by shape (spec 42 R203, 43 R241 to R247, 60 R292 to
R299). -/

namespace Sys2Proof.Machine

/-- An outcome to build on: `O0`, or `Ob` with its padding signal (10 R46, 43 R241). -/
structure CmdOutcome.Fresh (b : CmdOutcome) : Prop where
  code : b.code = .noDefect
  result : b.result = .accept
  framed : b.framed = false
  data : b.data = []
  declLen : b.declLen = 0#64
  hdrLen : b.hdrLen = 0#32
  badwordPos : b.badwordPos = 0#32
  padding : b.unpacked = false → b.padClean = false ∧ b.padCount = 0#3

theorem outcome0_fresh : outcome0.Fresh := ⟨rfl, rfl, rfl, rfl, rfl, rfl, rfl, fun _ => ⟨rfl, rfl⟩⟩

theorem unpackedOutcome_fresh (u : Unpacked) : (unpackedOutcome u).Fresh := ⟨rfl, rfl, rfl, rfl, rfl, rfl, rfl, nofun⟩

theorem headerLength_ofNat {hdr : Nat} (h : headerLength hdr) : headerLength (BitVec.ofNat 32 hdr).toNat := by
  rw [BitVec.toNat_ofNat]
  unfold headerLength at *
  omega

section
variable {p : Params} {b : CmdOutcome} {d : List OutEntry} {c : Code} {f : Bool} {len hdr : Nat}

/-- No defect, no frame (40 R137, 43 R243, R245). -/
theorem CmdOutcome.Fresh.sound_accept (hb : b.Fresh) (hd : Storable p d) : Sound p { b with data := d } := by
  constructor
  case data => exact hd
  case padding => exact hb.padding
  all_goals simp [hb.code, hb.result, hb.framed, hb.declLen, hb.hdrLen, hb.badwordPos]

/-- No defect, with a frame (42 R201, R202, R203). -/
theorem CmdOutcome.Fresh.sound_framed (hb : b.Fresh) (hd : Storable p d) (hh : headerLength hdr) :
    Sound p { b.withFrame len hdr with data := d, framed := true } := by
  constructor
  case data => exact hd
  case padding => exact hb.padding
  case frameFields => exact fun _ => headerLength_ofNat hh
  all_goals simp [hb.code, hb.result, hb.badwordPos]

/-- A truncated frame's available bytes (42 R203, 43 R246 row 5). -/
theorem CmdOutcome.Fresh.sound_partial (hb : b.Fresh) (hd : Storable p d) (hh : headerLength hdr) :
    Sound p { b.withFrame len hdr with code := .truncated, result := .partialAccept, data := d, framed := true } := by
  constructor
  case data => exact hd
  case padding => exact hb.padding
  case frameFields => exact fun _ => headerLength_ofNat hh
  all_goals simp [hb.badwordPos]

/-- A failure that reports no length (60 R292, R294, R297, R298). -/
theorem CmdOutcome.Fresh.sound_hardFail (hb : b.Fresh) {pos : Word}
    (hc : c = .badHeader ∨ c = .illegalCommand ∨ c = .capacity ∨ c = .badWord) (hpos : pos ≠ 0#32 → c = .badWord) :
    Sound p { b with code := c, result := .hardFail, badwordPos := pos } := by
  constructor
  case data => exact hb.data ▸ storable_nil p
  case padding => exact hb.padding
  case badWordPos => exact hpos
  all_goals rcases hc with rfl | rfl | rfl | rfl <;> simp [hb.framed, hb.data, hb.declLen, hb.hdrLen]

/-- A failure that reports the frame's length (42 R203, 43 R247). -/
theorem CmdOutcome.Fresh.sound_hardFail_withFrame (hb : b.Fresh) (hc : c = .absurdLength ∨ c = .truncated)
    (hh : headerLength hdr) : Sound p { b.withFrame len hdr with code := c, result := .hardFail, framed := f } := by
  constructor
  case data => exact hb.data ▸ storable_nil p
  case padding => exact hb.padding
  case frameFields => exact fun _ => headerLength_ofNat hh
  all_goals rcases hc with rfl | rfl <;> simp [hb.data, hb.badwordPos]

end

section
variable {p : Params} {u : Unpacked} {c : Code} {len hdr : Nat}

/-- Strict padding over leftover bits that are not all zero (43 R242). -/
theorem badPaddingOutcome_sound (hd : u.bytes.length ≤ p.obufDepth) (hpad : u.padClean = false) :
    (badPaddingOutcome u).Sound p := by
  constructor
  case data => exact storable_bytes hd
  all_goals simp [badPaddingOutcome, rawOutcome, unpackedOutcome, outcome0, hpad]

/-- The raw bitstream in place of a frame with no readable length (43 R246 row 3). -/
theorem fallbackOutcome_badHeader_sound (hd : u.bytes.length ≤ p.obufDepth) :
    (fallbackOutcome u .badHeader).Sound p := by
  constructor
  case data => exact storable_bytes hd
  all_goals simp [fallbackOutcome, rawOutcome, unpackedOutcome, outcome0]

/-- The raw bitstream in place of a frame whose length was read (43 R246 row 4, R247). -/
theorem fallbackOutcome_withFrame_sound (hd : u.bytes.length ≤ p.obufDepth) (hh : headerLength hdr)
    (hc : c = .absurdLength ∨ c = .truncated ∧ p.autoTrunc = .fallbackRaw) :
    ((fallbackOutcome u c).withFrame len hdr).Sound p := by
  constructor
  case data => exact storable_bytes hd
  case frameFields => exact fun _ => headerLength_ofNat hh
  all_goals
    rcases hc with rfl | ⟨rfl, ha⟩ <;> simp [fallbackOutcome, rawOutcome, unpackedOutcome, outcome0, *]

end

/-! SUPPORT. The outcomes of the commands are sound when the input is in capacity. -/

theorem illegalOutcome_sound (p : Params) : illegalOutcome.Sound p :=
  outcome0_fresh.sound_hardFail (.inr (.inl rfl)) (absurd rfl)

theorem capacityOutcome_sound (p : Params) : capacityOutcome.Sound p :=
  outcome0_fresh.sound_hardFail (.inr (.inr (.inl rfl))) (absurd rfl)

theorem badWordOutcome_sound (p : Params) (i : Nat) : (badWordOutcome i).Sound p :=
  outcome0_fresh.sound_hardFail (.inr (.inr (.inr rfl))) fun _ => rfl

theorem rawOutcome_sound {p : Params} {u : Unpacked} (hd : u.bytes.length ≤ p.obufDepth) : (rawOutcome u).Sound p :=
  (unpackedOutcome_fresh u).sound_accept (storable_bytes hd)

/-- The four ends of 42 R203, on any base. -/
theorem framedOutcome_sound {p : Params} {b : CmdOutcome} {r : FrameResult} {n : Nat} (c : Ctrl) (hb : b.Fresh)
    (hr : r.Within n) (hn : n ≤ p.obufDepth) : (framedOutcome c b r).Sound p := by
  cases r with
  | ok payload len hdr =>
    obtain ⟨hlen, hhdr⟩ := hr
    exact hb.sound_framed (storable_bytes (hlen.trans hn)) hhdr
  | badHeader => exact hb.sound_hardFail (.inl rfl) (absurd hb.badwordPos)
  | absurd len hdr => exact hb.sound_hardFail_withFrame (.inl rfl) hr
  | truncated available len hdr =>
    obtain ⟨hlen, hhdr⟩ := hr
    simp only [framedOutcome]
    split
    · exact hb.sound_partial (storable_bytes (hlen.trans hn)) hhdr
    · exact hb.sound_hardFail_withFrame (.inr rfl) hhdr

/-- The six rows of 43 R246. -/
theorem autoOutcome_sound {p : Params} {u : Unpacked} (c : Ctrl) (maxLen : Nat)
    (hd : u.bytes.length ≤ p.obufDepth) : (autoOutcome p c maxLen u).Sound p := by
  have hb := unpackedOutcome_fresh u
  have hw : ∀ {r}, unwrap p maxLen u.bytes = r → r.Within u.bytes.length := fun h => h ▸ unwrap_within p maxLen u.bytes
  rcases autoOutcome_cases p c maxLen u with
    ⟨-, h⟩ | ⟨-, ⟨_, _, _, hu, h⟩ | ⟨-, h⟩ | ⟨_, _, hu, h⟩ | ⟨_, _, _, hu, ⟨-, h⟩ | ⟨-, -, h⟩ | ⟨-, ha, h⟩⟩⟩ <;> rw [h]
  · exact rawOutcome_sound hd
  · obtain ⟨hlen, hhdr⟩ := hw hu
    exact hb.sound_framed (storable_bytes (hlen.trans hd)) hhdr
  · exact fallbackOutcome_badHeader_sound hd
  · exact fallbackOutcome_withFrame_sound hd (hw hu) (.inl rfl)
  · obtain ⟨hlen, hhdr⟩ := hw hu
    exact hb.sound_partial (storable_bytes (hlen.trans hd)) hhdr
  · obtain ⟨-, hhdr⟩ := hw hu
    exact hb.sound_hardFail_withFrame (.inr rfl) hhdr
  · obtain ⟨-, hhdr⟩ := hw hu
    exact fallbackOutcome_withFrame_sound hd hhdr (.inr ⟨rfl, ha⟩)

/-- OBUF_MIN leaves room for every unpack, every packed frame and every frame of an input in capacity (00 R10). -/
theorem obufDepth_suffices {p : Params} {n : Nat} (hp : p.wf) (hn : n ≤ p.ibufDepth) :
    11 * n / 8 ≤ p.obufDepth ∧ (8 * (n + 13) + 10) / 11 ≤ p.obufDepth ∧ n + 13 ≤ p.obufDepth := by
  obtain ⟨-, -, hmin, -⟩ := hp
  unfold obufMin at hmin
  omega

/-- The prologue of a DECODE keeps soundness (43 R240 to R242). -/
theorem tokensOutcome_sound {p : Params} {f : Unpacked → CmdOutcome} {es : List InEntry} (c : Ctrl) (hp : p.wf)
    (hn : es.length ≤ p.ibufDepth) (hf : ∀ u : Unpacked, u.bytes.length ≤ p.obufDepth → (f u).Sound p) :
    (tokensOutcome c f es).Sound p := by
  have hd : (unpack (es.map entrySym)).bytes.length ≤ p.obufDepth := by
    have := unpack_length_le (es.map entrySym)
    rw [List.length_map] at this
    exact this.trans (obufDepth_suffices hp hn).1
  rcases tokensOutcome_cases c f es with ⟨i, -, h⟩ | ⟨-, ⟨hpad, h⟩ | ⟨-, h⟩⟩ <;> rw [h]
  · exact badWordOutcome_sound p i
  · exact badPaddingOutcome_sound hd ((badPadding_iff _ _).1 hpad).2
  · exact hf _ hd

/-- A frame made of an input in capacity: its header and its length. -/
theorem wrap_bounds {p : Params} {bs : List Byte} (hp : p.wf) (hn : bs.length ≤ p.ibufDepth) :
    headerLength (wrapHdrLen bs.length) ∧ (wrap p bs).length ≤ bs.length + 13 := by
  obtain ⟨-, hdepth, -, -⟩ := hp
  have := wrapHdrLen_bounds (hn.trans hdepth)
  rw [wrap_length]
  exact ⟨⟨by omega, by omega⟩, by omega⟩

theorem withBytes_next_sound {s t : State} {f : List Byte → CmdOutcome} (hn : s.inLen.toNat ≤ s.params.ibufDepth)
    (hf : ∀ bs : List Byte, bs.length ≤ s.params.ibufDepth → (f bs).Sound s.params) (h : withBytes s f = .next t) :
    ∃ o, t = s.finish o ∧ o.Sound s.params := by
  obtain ⟨bs, hl, ht⟩ := withBytes_next h
  exact ⟨_, ht, hf bs (hl ▸ hn)⟩

theorem withTokens_next_sound {s t : State} {f : Unpacked → CmdOutcome} (hp : s.params.wf)
    (hn : s.inLen.toNat ≤ s.params.ibufDepth)
    (hf : ∀ u : Unpacked, u.bytes.length ≤ s.params.obufDepth → (f u).Sound s.params)
    (h : withTokens s f = .next t) : ∃ o, t = s.finish o ∧ o.Sound s.params := by
  obtain ⟨es, hl, ht⟩ := withInput_next h
  exact ⟨_, ht, tokensOutcome_sound s.ctrl hp (hl ▸ hn) hf⟩

/-- A command whose input is in capacity completes with a sound outcome. -/
theorem exec_next_sound {i : Instr} {s t : State} (hp : s.params.wf) (hn : s.inLen.toNat ≤ s.params.ibufDepth)
    (h : exec i s = .next t) : ∃ o, t = s.finish o ∧ o.Sound s.params := by
  cases i with
  | encodeRaw =>
    refine withBytes_next_sound hn (fun bs hbs => outcome0_fresh.sound_accept (storable_symbols ?_)) h
    obtain ⟨-, hpack, -⟩ := obufDepth_suffices hp hbs
    exact (pack_length_le bs).trans (by omega)
  | encodeFramed =>
    unfold exec execEncodeFramed at h
    refine withBytes_next_sound hn (fun bs hbs => ?_) h
    obtain ⟨hhdr, hlen⟩ := wrap_bounds hp hbs
    refine outcome0_fresh.sound_framed (storable_symbols ?_) hhdr
    obtain ⟨-, hpack, -⟩ := obufDepth_suffices hp hbs
    exact (pack_length_le _).trans (by omega)
  | frameWrap =>
    unfold exec execFrameWrap at h
    refine withBytes_next_sound hn (fun bs hbs => ?_) h
    obtain ⟨hhdr, hlen⟩ := wrap_bounds hp hbs
    obtain ⟨-, -, hframe⟩ := obufDepth_suffices hp hbs
    exact outcome0_fresh.sound_framed (storable_bytes (hlen.trans hframe)) hhdr
  | frameUnwrap =>
    unfold exec execFrameUnwrap at h
    refine withBytes_next_sound hn (fun bs hbs => ?_) h
    obtain ⟨-, -, hframe⟩ := obufDepth_suffices hp hbs
    exact framedOutcome_sound s.ctrl outcome0_fresh (unwrap_within _ _ bs) (by omega)
  | decodeRaw => exact withTokens_next_sound hp hn (fun u => rawOutcome_sound) h
  | decodeFramed =>
    refine withTokens_next_sound hp hn (fun u => ?_) h
    exact framedOutcome_sound s.ctrl (unpackedOutcome_fresh u) (unwrap_within _ _ u.bytes)
  | decodeAuto => exact withTokens_next_sound hp hn (fun u => autoOutcome_sound s.ctrl s.maxLen.toNat) h

end Sys2Proof.Machine

/-! SUPPORT. Every operation of a step keeps `State.ResultInv` (spec 10 R45, R47, 20 R74, R76, 70 R331, R336). -/

namespace Sys2Proof.Machine

theorem applyReset_resultInv (s : State) : s.applyReset.ResultInv :=
  (resultInv_iff _).2 ⟨outcome0_fresh.sound_accept (storable_nil _), rfl⟩

/-- Issue keeps the results of the last command, or completes a defect of its own (10 R45). -/
theorem issue_resultInv {s : State} (hp : s.params.wf) (h : s.ResultInv) (w : Word) : (s.issue w).ResultInv := by
  rcases issue_cases s w with ⟨-, hi⟩ | ⟨-, -, hi⟩ | ⟨-, -, hi⟩ <;> rw [hi]
  · refine finish_resultInv ?_ (illegalOutcome_sound _)
    exact hp
  · refine finish_resultInv ?_ (capacityOutcome_sound _)
    exact hp
  · exact h.congr rfl rfl rfl

theorem hostWrite_resultInv {s : State} (hp : s.params.wf) (h : s.ResultInv) (offset v : Word) :
    (s.hostWrite offset v).ResultInv := by
  rcases hostWrite_cases s offset v with
    hw | ⟨-, hw⟩ | ⟨-, hw | ⟨_, hw⟩ | ⟨_, hw⟩ | ⟨_, hw⟩ | ⟨_, _, -, -, hw⟩⟩ <;> rw [hw]
  · exact h
  · exact h.congr rfl rfl rfl
  · exact issue_resultInv hp h v
  all_goals exact h.congr rfl rfl rfl

theorem performEvent_resultInv {s t : State} {e : HostEvent} (hp : s.params.wf) (h : s.ResultInv)
    (he : s.performEvent e = .next t) : t.ResultInv := by
  rcases performEvent_next he with ⟨offset, v, rfl⟩ | ⟨draws, replies, rfl⟩ | rfl
  · exact hostWrite_resultInv hp h offset v
  · exact h.congr rfl rfl rfl
  · exact applyReset_resultInv s

/-- Settles O28, by the branches of the step: an event keeps the results or completes a defect of its own, and a
running command, in capacity by `State.Inv`, completes with a sound outcome. -/
theorem stepKeepsResultInv : Obligations.StepKeepsResultInv := by
  intro s t hinv h hs
  have hp := hinv.paramsWf
  rcases step_next hs with rfl | ⟨e, es, wait, he⟩ | ⟨hbusy, ⟨i, he⟩ | rfl⟩
  · exact h
  · refine performEvent_resultInv ?_ ?_ he
    exacts [hp, h.congr rfl rfl rfl]
  · obtain ⟨-, -, hcap, -⟩ := hinv.busyLegal hbusy
    obtain ⟨o, rfl, ho⟩ := exec_next_sound hp hcap he
    exact finish_resultInv hp ho
  · exact finish_resultInv hp (illegalOutcome_sound _)

end Sys2Proof.Machine

/-! SUPPORT. The words of MAGIC and CTRL, and the configuration written and read while idle (10 R32 to R34, R40). -/

namespace Sys2Proof.Machine

/-- Two words side by side, as arithmetic: the left one counts in units of the right one's range. -/
theorem toNat_append_eq {m n : Nat} (hi : BitVec m) (lo : BitVec n) :
    (hi ++ lo).toNat = hi.toNat * 2 ^ n + lo.toNat := by
  rw [BitVec.toNat_append, ← Nat.shiftLeft_add_eq_or_of_lt lo.isLt, Nat.shiftLeft_eq]

/-- MAGIC_LO and MAGIC_HI hold four bytes, the first least significant (10 R40). -/
theorem magicWord_toNat (b0 b1 b2 b3 : Byte) :
    (magicWord b0 b1 b2 b3).toNat = b0.toNat + b1.toNat * 2 ^ 8 + b2.toNat * 2 ^ 16 + b3.toNat * 2 ^ 24 := by
  unfold magicWord
  rw [BitVec.setWidth_eq, toNat_append_eq, toNat_append_eq, toNat_append_eq]
  omega

/-- CTRL keeps bits 1:0 of a written word and reads the others as 0 (10 R32). -/
theorem ctrl_word_ofWord (v : Word) : (Ctrl.ofWord v).word = v &&& 3#32 := by
  apply BitVec.eq_of_getLsbD_eq
  intro k hk
  have hmask : (3#32).getLsbD k = decide (k < 2) := by
    rw [BitVec.getLsbD_ofNat, decide_eq_true hk, Bool.true_and]
    exact Nat.testBit_two_pow_sub_one 2 k
  rw [BitVec.getLsbD_and, hmask]
  unfold Ctrl.word Ctrl.ofWord
  rw [BitVec.getLsbD_setWidth, BitVec.getLsbD_append, decide_eq_true hk]
  rcases k with _ | _ | k <;> simp

/-! Writes of the configuration while idle (10 R32 to R34). -/

section
variable {s : State}

theorem not_busy_of_idle (h : s.phase = .idle) : ¬s.busy = true := by
  rw [(not_busy_iff s).2 h]
  exact Bool.false_ne_true

theorem hostWrite_ctrl_of_idle (h : s.phase = .idle) (v : Word) :
    s.hostWrite 0x008#32 v = { s with ctrl := Ctrl.ofWord v } :=
  (hostWrite_reg s .ctrl v).trans (if_neg (not_busy_of_idle h))

theorem hostWrite_maxLenLo_of_idle (h : s.phase = .idle) (v : Word) :
    s.hostWrite 0x00C#32 v = { s with maxLen := (s.maxLen.extractLsb' 32 32 ++ v).setWidth 64 } :=
  (hostWrite_reg s .maxLenLo v).trans (if_neg (not_busy_of_idle h))

theorem hostWrite_maxLenHi_of_idle (h : s.phase = .idle) (v : Word) :
    s.hostWrite 0x010#32 v = { s with maxLen := (v ++ s.maxLen.extractLsb' 0 32).setWidth 64 } :=
  (hostWrite_reg s .maxLenHi v).trans (if_neg (not_busy_of_idle h))

theorem hostWrite_inLen_of_idle (h : s.phase = .idle) (v : Word) : s.hostWrite 0x014#32 v = { s with inLen := v } :=
  (hostWrite_reg s .inLen v).trans (if_neg (not_busy_of_idle h))

/-- A CMD write while idle is the issue of its word (10 R45). -/
theorem hostWrite_cmd_of_idle (h : s.phase = .idle) (w : Word) : s.hostWrite 0x000#32 w = s.issue w :=
  (hostWrite_reg s .cmd w).trans (if_neg (not_busy_of_idle h))

end

/-! What the configuration registers read as, and MAX_LEN as its two halves (10 R32 to R34). -/

theorem hostRead_ctrl (s : State) : (s.hostRead 0x008#32).1 = s.ctrl.word :=
  congrArg Prod.fst (hostRead_reg s .ctrl)

theorem hostRead_maxLenLo (s : State) : (s.hostRead 0x00C#32).1 = s.maxLen.extractLsb' 0 32 :=
  congrArg Prod.fst (hostRead_reg s .maxLenLo)

theorem hostRead_maxLenHi (s : State) : (s.hostRead 0x010#32).1 = s.maxLen.extractLsb' 32 32 :=
  congrArg Prod.fst (hostRead_reg s .maxLenHi)

theorem hostRead_inLen (s : State) : (s.hostRead 0x014#32).1 = s.inLen := congrArg Prod.fst (hostRead_reg s .inLen)

/-- The low half of two joined words. -/
theorem join_low (hi lo : Word) : ((hi ++ lo).setWidth 64).extractLsb' 0 32 = lo := by
  rw [BitVec.setWidth_eq, BitVec.extractLsb'_append_eq_right]

/-- The high half of two joined words. -/
theorem join_high (hi lo : Word) : ((hi ++ lo).setWidth 64).extractLsb' 32 32 = hi := by
  rw [BitVec.setWidth_eq, BitVec.extractLsb'_append_eq_left]

theorem join_toNat (hi lo : Word) : ((hi ++ lo).setWidth 64).toNat = hi.toNat * 2 ^ 32 + lo.toNat := by
  rw [BitVec.setWidth_eq, toNat_append_eq]

theorem low_toNat (d : DWord) : (d.extractLsb' 0 32).toNat = d.toNat % 2 ^ 32 := by
  rw [BitVec.extractLsb'_toNat, Nat.shiftRight_zero]

theorem high_toNat (d : DWord) : (d.extractLsb' 32 32).toNat = d.toNat / 2 ^ 32 := by
  have := d.isLt
  rw [BitVec.extractLsb'_toNat, Nat.shiftRight_eq_div_pow]
  omega

/-- Settles O12: each write changes its field, and the read gives the field back. -/
theorem idleConfigurationWrites : Obligations.IdleConfigurationWrites := by
  intro s v h
  refine ⟨⟨hostWrite_ctrl_of_idle h v, ?ctrl⟩, ⟨?loFrame, ?loRead, ?loOther, ?loValue⟩,
    ⟨?hiFrame, ?hiRead, ?hiOther, ?hiValue⟩, hostWrite_inLen_of_idle h v, ?inLen⟩
  case ctrl => rw [hostWrite_ctrl_of_idle h, hostRead_ctrl, ctrl_word_ofWord]
  case loFrame => rw [hostWrite_maxLenLo_of_idle h]
  case loRead => rw [hostWrite_maxLenLo_of_idle h, hostRead_maxLenLo, join_low]
  case loOther => rw [hostWrite_maxLenLo_of_idle h, hostRead_maxLenHi, hostRead_maxLenHi, join_high]
  case loValue => rw [hostWrite_maxLenLo_of_idle h, join_toNat, high_toNat]
  case hiFrame => rw [hostWrite_maxLenHi_of_idle h]
  case hiRead => rw [hostWrite_maxLenHi_of_idle h, hostRead_maxLenHi, join_high]
  case hiOther => rw [hostWrite_maxLenHi_of_idle h, hostRead_maxLenLo, hostRead_maxLenLo, join_low]
  case hiValue => rw [hostWrite_maxLenHi_of_idle h, join_toNat, low_toNat]
  case inLen => rw [hostWrite_inLen_of_idle h, hostRead_inLen]

end Sys2Proof.Machine

/-! SUPPORT. What the host cannot write: the read-only registers and everything from the OBUF window on (10 R20,
20 R65, R67). -/

namespace Sys2Proof.Machine

/-- An offset that names an IBUF entry lies in the IBUF window (20 R62). -/
theorem offset_of_targetOf_ibuf {p : Params} {offset : Word} {i : Nat} (h : targetOf p offset = .ibuf i) :
    0x40000000 ≤ offset.toNat ∧ offset.toNat < 0x80000000 := by
  have hlow : ibufBase ≤ offset.toNat := by
    by_contra hlt
    unfold targetOf at h
    dsimp only at h
    rw [if_pos (by omega)] at h
    split at h <;> cases h
  have hhigh : offset.toNat < obufBase := by
    by_contra hge
    rcases targetOf_high (p := p) (offset := offset) (Nat.le_of_not_lt hge) with hr | ⟨j, ho⟩
    · rw [hr] at h
      cases h
    · rw [ho] at h
      cases h
  exact ⟨hlow, hhigh⟩

/-- Settles O16, by what the offset names: a read-only register, OBUF or a reserved place. -/
theorem readOnlyWritesAreIgnored : Obligations.ReadOnlyWritesAreIgnored := by
  intro s offset v h
  unfold State.hostWrite
  cases ht : targetOf s.params offset with
  | reg r =>
    rw [offset_of_targetOf_reg ht] at h
    cases r
    case cmd | ctrl | maxLenLo | maxLenHi | inLen => simp [Reg.offset] at h
    all_goals rfl
  | ibuf i =>
    obtain ⟨hlow, hhigh⟩ := offset_of_targetOf_ibuf ht
    simp only [List.mem_cons, List.not_mem_nil, or_false] at h
    omega
  | obuf i => rfl
  | reserved => rfl

end Sys2Proof.Machine

/-! SUPPORT. The fields of the STATUS word, and which of them are current in which phase (10 R22, 70 R335). -/

namespace Sys2Proof.Machine

/-- A field of a word is what its bits are. -/
theorem extractLsb'_eq_of_bits {w : Word} {low n : Nat} {x : BitVec n}
    (h : ∀ k < n, w.getLsbD (low + k) = x.getLsbD k) : w.extractLsb' low n = x := by
  apply BitVec.eq_of_getLsbD_eq
  intro k hk
  rw [BitVec.getLsbD_extractLsb', decide_eq_true hk, Bool.true_and, h k hk]

section
variable {w : Word} {unpacked : BitVec 1} {padCount : BitVec 3} {padClean framed : BitVec 1} {result : BitVec 2}
  {code : BitVec 4} {ignoredWrite done busy : BitVec 1}
  (h : w = packStatus unpacked padCount padClean framed result code ignoredWrite done busy)
include h

/-- The fields of several bits, and the reserved bits 31:16. -/
theorem packStatus_fields :
    w.extractLsb' 4 4 = code ∧ w.extractLsb' 8 2 = result ∧ w.extractLsb' 12 3 = padCount ∧
      w.extractLsb' 16 16 = 0#16 := by
  subst h
  refine ⟨?_, ?_, ?_, ?_⟩
  all_goals
    refine extractLsb'_eq_of_bits fun k hk => ?_
    rw [packStatus_getLsbD _ _ _ _ _ _ _ _ _ _ (by omega)]
    interval_cases k <;> rfl

/-- The flags and the reserved bit 3, one bit each. -/
theorem packStatus_flags :
    w.getLsbD 0 = busy.getLsbD 0 ∧ w.getLsbD 1 = done.getLsbD 0 ∧ w.getLsbD 2 = ignoredWrite.getLsbD 0 ∧
      w.getLsbD 3 = false ∧ w.getLsbD 10 = framed.getLsbD 0 ∧ w.getLsbD 11 = padClean.getLsbD 0 ∧
      w.getLsbD 15 = unpacked.getLsbD 0 := by
  have hbit := packStatus_getLsbD unpacked padCount padClean framed result code ignoredWrite done busy
  rw [← h] at hbit
  exact ⟨hbit 0 (by omega), hbit 1 (by omega), hbit 2 (by omega), hbit 3 (by omega), hbit 10 (by omega),
    hbit 11 (by omega), hbit 15 (by omega)⟩

end

/-- A read of STATUS while idle gives the stored fields (10 R22). -/
theorem hostRead_status_of_idle {s : State} (h : s.phase = .idle) : s.hostRead 0x004#32 = (s.statusWord, s) :=
  (hostRead_reg s .status).trans (if_neg (not_busy_of_idle h))

/-- In every phase BUSY, DONE and IGNORED_WRITE read as they are and the reserved bits as 0 (10 R22, 70 R335). -/
theorem hostRead_status_current (s : State) : ∃ unpacked padCount padClean framed result code,
    (s.hostRead 0x004#32).1 = packStatus unpacked padCount padClean framed result code (.ofBool s.status.ignoredWrite)
      (.ofBool s.status.done) (.ofBool s.busy) := by
  cases h : s.phase with
  | idle => exact ⟨_, _, _, _, _, _, congrArg Prod.fst (hostRead_status_of_idle h)⟩
  | busy =>
    have hr : s.hostRead 0x004#32 = (s.busyStatusWord s.draw.1, s.draw.2) :=
      (hostRead_reg s .status).trans (if_pos ((busy_iff s).2 h))
    exact ⟨_, _, _, _, _, _, congrArg Prod.fst hr⟩

/-- Settles O18: the current fields in every phase, then the result fields while idle, then the reset word. -/
theorem statusWordLayout : Obligations.StatusWordLayout := by
  refine ⟨fun s => ?_, hostRead_status_of_idle reset_phase⟩
  obtain ⟨_, _, _, _, _, _, hw⟩ := hostRead_status_current s
  obtain ⟨-, -, -, hhigh⟩ := packStatus_fields hw
  obtain ⟨hbusy, hdone, hignored, hreserved, -, -, -⟩ := packStatus_flags hw
  simp only [BitVec.getLsbD_ofBool, decide_true, Bool.true_and] at hbusy hdone hignored
  refine ⟨hbusy, hdone, hignored, hreserved, hhigh, fun hidle => ?_⟩
  rw [hostRead_status_of_idle hidle]
  obtain ⟨hcode, hresult, hcount, -⟩ := packStatus_fields (Eq.refl s.statusWord)
  obtain ⟨-, -, -, -, hframed, hclean, hunpacked⟩ := packStatus_flags (Eq.refl s.statusWord)
  simp only [BitVec.getLsbD_ofBool, decide_true, Bool.true_and] at hframed hclean hunpacked
  exact ⟨hcode, hresult, hframed, hclean, hcount, hunpacked⟩

end Sys2Proof.Machine

/-! SUPPORT. The hard-wired parameters through every step, and the result registers and OBUF read while idle
(10 R35 to R41, 20 R67). -/

namespace Sys2Proof.Machine

/-- No event changes the parameters, RESET included (10 R40, R41). -/
theorem performEvent_params {s t : State} {e : HostEvent} (h : s.performEvent e = .next t) : t.params = s.params := by
  rcases performEvent_next h with ⟨offset, v, rfl⟩ | ⟨_, _, rfl⟩ | rfl
  · exact hostWrite_params s offset v
  · rfl
  · exact applyReset_params s

/-- Every next state of a command is a completion (60 R290). -/
theorem exec_next {i : Instr} {s t : State} (h : exec i s = .next t) : ∃ o, t = s.finish o := by
  rcases exec_cases i s with ⟨o, ho⟩ | ⟨k, hk⟩
  · exact ⟨o, Host.Outcome.next.inj (h.symm.trans ho)⟩
  · rw [hk] at h
    cases h

theorem step_params {s t : State} (h : step s = .next t) : t.params = s.params := by
  rcases step_next h with rfl | ⟨e, es, wait, he⟩ | ⟨-, ⟨i, he⟩ | rfl⟩
  · rfl
  · have hp := performEvent_params he
    exact hp
  · obtain ⟨o, rfl⟩ := exec_next he
    exact finish_params s o
  · exact finish_params s _

/-- Settles O20: the registers by their reads, the parameters by the branches of the step. -/
theorem hardwiredRegisters : Obligations.HardwiredRegisters := by
  refine ⟨fun s hp => ?_, fun s t => step_params⟩
  obtain ⟨-, hibuf, -, hobuf⟩ := hp
  have hlo := congrArg Prod.fst (hostRead_reg s .magicLo)
  have hhi := congrArg Prod.fst (hostRead_reg s .magicHi)
  have hi : (s.hostRead 0x038#32).1 = BitVec.ofNat 32 s.params.ibufDepth :=
    congrArg Prod.fst (hostRead_reg s .ibufDepth)
  have ho : (s.hostRead 0x03C#32).1 = BitVec.ofNat 32 s.params.obufDepth :=
    congrArg Prod.fst (hostRead_reg s .obufDepth)
  refine ⟨?_, ?_, ?_, ?_⟩
  · exact (congrArg BitVec.toNat hlo).trans (magicWord_toNat _ _ _ _)
  · exact (congrArg BitVec.toNat hhi).trans (magicWord_toNat _ _ _ _)
  · rw [hi, BitVec.toNat_ofNat, Nat.mod_eq_of_lt (by omega)]
  · rw [ho, BitVec.toNat_ofNat, Nat.mod_eq_of_lt (by omega)]

/-- While idle a result register reads as it is (70 R335). -/
theorem readResult_of_idle {s : State} (h : s.phase = .idle) (v : Word) : s.readResult v = (v, s) :=
  if_neg (not_busy_of_idle h)

/-- While idle a stored OBUF entry below OUT_LEN reads as its 16 bits (20 R67). -/
theorem readObuf_of_idle {s : State} {i : Nat} {e : OutEntry} (h : s.phase = .idle) (hi : i < s.outLen.toNat)
    (he : s.obuf[i]? = some e) : s.readObuf i = (e.zeroExtend 32, s) := by
  unfold State.readObuf
  rw [if_neg (not_busy_of_idle h), if_pos hi, he]

theorem hostRead_obuf_of_idle {s : State} {i : Nat} {offset : Word} (hinv : s.ResultInv) (h : s.phase = .idle)
    (hi : i < s.outLen.toNat) (ho : offset.toNat = 0x80000000 + 4 * i) :
    s.hostRead offset = ((s.obuf.getD i 0#16).zeroExtend 32, s) := by
  have hlen := hinv.outLen
  have hfits := hinv.fits
  have he : s.obuf[i]? = some (s.obuf.getD i 0#16) := by
    rw [List.getD_eq_getElem?_getD, List.getElem?_eq_getElem (by omega), Option.getD_some]
  rw [State.hostRead, targetOf_obuf (by omega) ho]
  exact readObuf_of_idle h hi he

/-- Settles O21, register by register; the result invariant puts each OBUF entry below OUT_LEN in the buffer. -/
theorem resultsReadBack : Obligations.ResultsReadBack := by
  refine ⟨fun s => ⟨hostRead_reg s .cmd, hostRead_reg s .lastCmd⟩, fun s _ hinv h => ?_⟩
  refine ⟨?outLen, ?declLo, ?declHi, ?hdrLen, ?badwordPos, fun i offset hi ho => ?obuf⟩
  case outLen => exact (hostRead_reg s .outLen).trans (readResult_of_idle h _)
  case declLo =>
    rw [← low_toNat, BitVec.ofNat_toNat, BitVec.setWidth_eq]
    exact (hostRead_reg s .declLenLo).trans (readResult_of_idle h _)
  case declHi =>
    rw [← high_toNat, BitVec.ofNat_toNat, BitVec.setWidth_eq]
    exact (hostRead_reg s .declLenHi).trans (readResult_of_idle h _)
  case hdrLen => exact (hostRead_reg s .hdrLen).trans (readResult_of_idle h _)
  case badwordPos => exact (hostRead_reg s .badwordPos).trans (readResult_of_idle h _)
  case obuf =>
    rw [hostRead_obuf_of_idle hinv h hi ho]
    exact ⟨rfl, BitVec.toNat_setWidth_of_le (by omega)⟩

end Sys2Proof.Machine

/-! SUPPORT. What completion leaves unchanged and what it frees (10 R44, R47; 60 R302). -/

namespace Sys2Proof.Machine

theorem finish_sameConfig (s : State) (o : CmdOutcome) : SameConfig s (s.finish o) :=
  ⟨rfl, rfl, rfl, rfl, rfl, rfl, fun _ => rfl, rfl, rfl, rfl, rfl⟩

theorem finish_completed (s : State) (o : CmdOutcome) : Completed (s.finish o) := ⟨rfl, rfl, rfl⟩

/-- Input entries are IBUF's, so states with the same IBUF have the same. -/
theorem inNat_congr {s t : State} (h : t.ibuf = s.ibuf) (k : Nat) : t.inNat k = s.inNat k := by
  unfold State.inNat
  rw [h]

/-- Settles O29: a command's next state is a completion. -/
theorem commandsKeepConfiguration : Obligations.CommandsKeepConfiguration := by
  intro i s t h
  obtain ⟨o, rfl⟩ := exec_next h
  exact ⟨finish_sameConfig s o, finish_completed s o, inNat_congr (finish_ibuf s o)⟩

/-- CUR and the indices of `t` are the free values of `s`'s count of draws, and one draw is counted (entries 9
and 11). -/
abbrev FreedSequencer (s t : State) : Prop :=
  t.cur = Config.idleCur s.draws ∧ t.inIndex = Config.idleInIndex s.draws ∧
    t.outIndex = Config.idleOutIndex s.draws ∧ t.draws = s.draws + 1

theorem finish_freedSequencer (s : State) (o : CmdOutcome) : FreedSequencer s (s.finish o) := ⟨rfl, rfl, rfl, rfl⟩

/-- Issue completes at once for an illegal word and for an over-capacity input (60 R297, R298). -/
theorem issue_freedSequencer {s : State} {w : Word} (h : legal w = false ∨ s.params.ibufDepth < s.inLen.toNat) :
    FreedSequencer s (s.issue w) := by
  rcases issue_cases s w with ⟨-, hi⟩ | ⟨-, -, hi⟩ | ⟨hl, hc, -⟩
  · rw [hi]
    exact finish_freedSequencer _ _
  · rw [hi]
    exact finish_freedSequencer _ _
  · rcases h with h | h
    · rw [hl] at h
      cases h
    · omega

/-- Settles O30: the completion of a command, then the two completions at issue. -/
theorem completionFreesSequencer : Obligations.CompletionFreesSequencer := by
  constructor
  · intro i s t h
    obtain ⟨o, rfl⟩ := exec_next h
    exact finish_freedSequencer s o
  · intro s w hidle h
    rw [hostWrite_cmd_of_idle hidle]
    exact issue_freedSequencer h

/-- Settles O8: the issue of a legal word in capacity is the last of issue's three cases. -/
theorem issueStartsCommand : Obligations.IssueStartsCommand := by
  intro s w hidle hlegal hcap
  rw [hostWrite_cmd_of_idle hidle]
  rcases issue_cases s w with ⟨hl, -⟩ | ⟨-, hc, -⟩ | ⟨-, -, hi⟩
  · rw [hlegal] at hl
    cases hl
  · omega
  · exact ⟨Config.latency s.draws, hi⟩

end Sys2Proof.Machine

/-! SUPPORT. The engine's turn (10 R44, 70 R343). -/

namespace Sys2Proof.Machine

/-- While BUSY with no access left to serve first, it is the engine's turn (entry 4). -/
theorem fetch_of_engineTurn {s : State} (hbusy : s.phase = .busy) (h : s.pending = [] ∨ s.wait = 0) :
    s.fetch = some s.cur := by
  unfold State.fetch
  rw [hbusy]
  cases hp : s.pending with
  | nil => rfl
  | cons e es =>
    rcases h with h | h
    · rw [hp] at h
      cases h
    · exact if_pos h

theorem step_of_decode {s : State} {w : Word} {i : Instr} (hf : s.fetch = some w) (hd : decode w = .ok i) :
    step s = exec i s := by
  simp only [step, hf, hd]

/-- Settles O5: in its turn the engine fetches CUR. -/
theorem stepRunsDecodedCommand : Obligations.StepRunsDecodedCommand :=
  fun _ _ hbusy h hd _ => step_of_decode (fetch_of_engineTurn hbusy h) hd

theorem decode_encode (i : Instr) : decode (encode i) = .ok i := by
  cases i <;> rfl

/-- A 32-bit word placed whole is the word itself. -/
theorem withFetchWord_toNat (s : State) (w : Word) : s.withFetchWord 32 w.toNat = s.placeCommand w := by
  rw [State.withFetchWord, Nat.mod_eq_of_lt w.isLt, BitVec.ofNat_toNat, BitVec.setWidth_eq]

/-- Settles O7: the placed word is in CUR with no access left to serve, and decodes back to the command. -/
theorem placedCommandRunsNext : Obligations.PlacedCommandRunsNext := by
  intro s i
  rw [withFetchWord_toNat]
  have hf : (s.placeCommand (encode i)).fetch = some (encode i) :=
    fetch_of_engineTurn (placeCommand_phase s _) (.inr (placeCommand_wait s _))
  exact step_of_decode hf (decode_encode i)

end Sys2Proof.Machine

/-! SUPPORT. CUR and the indices while idle are not observable (10 R44, 93 U7): every host access does the same whatever
they hold. -/

namespace Sys2Proof.Machine

/-- `s` with other values in CUR and the indices. -/
def State.withSequencer (s : State) (c : Word) (i o : Nat) : State := { s with cur := c, inIndex := i, outIndex := o }

/-- `u` is `t` but for CUR and the indices, and in those too once a command runs. -/
def AgreeButIdleSequencer (t u : State) : Prop :=
  ∃ c i o, u = t.withSequencer c i o ∧ (t.phase = .busy → c = t.cur ∧ i = t.inIndex ∧ o = t.outIndex)

theorem AgreeButIdleSequencer.refl (t : State) : AgreeButIdleSequencer t t :=
  ⟨t.cur, t.inIndex, t.outIndex, rfl, fun _ => ⟨rfl, rfl, rfl⟩⟩

theorem AgreeButIdleSequencer.of_idle {t : State} (h : t.phase = .idle) (c : Word) (i o : Nat) :
    AgreeButIdleSequencer t (t.withSequencer c i o) :=
  ⟨c, i, o, rfl, fun hbusy => by rw [h] at hbusy; cases hbusy⟩

section
variable (s : State) (c : Word) (i o : Nat)

/-- Issue overwrites CUR and the indices, or completes, which frees them (10 R45, R47). -/
theorem issue_withSequencer (w : Word) : (s.withSequencer c i o).issue w = s.issue w := rfl

@[simp] theorem withSequencer_busy : (s.withSequencer c i o).busy = s.busy := rfl

@[simp] theorem withSequencer_params : (s.withSequencer c i o).params = s.params := rfl

theorem readReg_withSequencer (r : Reg) :
    (s.withSequencer c i o).readReg r = ((s.readReg r).1, (s.readReg r).2.withSequencer c i o) := by
  have hresult : ∀ v, (s.withSequencer c i o).readResult v =
      ((s.readResult v).1, (s.readResult v).2.withSequencer c i o) := fun v => by
    unfold State.readResult
    rw [withSequencer_busy]
    split <;> rfl
  cases r
  case status =>
    unfold State.readReg
    dsimp only
    rw [withSequencer_busy]
    cases s.busy <;> rfl
  case outLen | declLenLo | declLenHi | hdrLen | badwordPos => exact hresult _
  all_goals rfl

theorem readIbuf_withSequencer (k : Nat) :
    (s.withSequencer c i o).readIbuf k = ((s.readIbuf k).1, (s.readIbuf k).2.withSequencer c i o) := by
  have hibuf : (s.withSequencer c i o).ibuf = s.ibuf := rfl
  unfold State.readIbuf
  rw [hibuf]
  cases s.ibuf.read k <;> rfl

theorem readObuf_withSequencer (k : Nat) :
    (s.withSequencer c i o).readObuf k = ((s.readObuf k).1, (s.readObuf k).2.withSequencer c i o) := by
  have hobuf : (s.withSequencer c i o).obuf = s.obuf := rfl
  have houtLen : (s.withSequencer c i o).outLen = s.outLen := rfl
  unfold State.readObuf
  rw [withSequencer_busy, hobuf, houtLen]
  cases s.busy
  · cases (if k < s.outLen.toNat then s.obuf[k]? else none) <;> rfl
  · rfl

/-- A host read returns the same value, and leaves CUR and the indices. -/
theorem hostRead_withSequencer (offset : Word) :
    (s.withSequencer c i o).hostRead offset =
      ((s.hostRead offset).1, (s.hostRead offset).2.withSequencer c i o) := by
  unfold State.hostRead
  rw [withSequencer_params]
  cases targetOf s.params offset with
  | reg r => exact readReg_withSequencer s c i o r
  | ibuf k => exact readIbuf_withSequencer s c i o k
  | obuf k => exact readObuf_withSequencer s c i o k
  | reserved => rfl

end

theorem hostRead_phase (s : State) (offset : Word) : (s.hostRead offset).2.phase = s.phase := by
  rcases hostRead_state s offset with h | h <;> rw [h]

section
variable {s : State} (h : s.phase = .idle) (c : Word) (i o : Nat)
include h

/-- A write that BUSY would drop, of any field but the sequencer's, takes the same effect in both states. -/
theorem unlessBusy_agree {f : State → State} (hphase : (f s).phase = s.phase)
    (hcomm : f (s.withSequencer c i o) = (f s).withSequencer c i o) :
    AgreeButIdleSequencer (s.unlessBusy f) ((s.withSequencer c i o).unlessBusy f) := by
  have hb := (not_busy_iff s).2 h
  rw [unlessBusy_of_idle hb, unlessBusy_of_idle ((withSequencer_busy s c i o).trans hb), hcomm]
  exact .of_idle (hphase.trans h) c i o

theorem writeReg_agree (r : Reg) (v : Word) :
    AgreeButIdleSequencer (s.writeReg r v) ((s.withSequencer c i o).writeReg r v) := by
  cases r <;> dsimp only [State.writeReg]
  case cmd =>
    have hb := (not_busy_iff s).2 h
    rw [unlessBusy_of_idle hb, unlessBusy_of_idle ((withSequencer_busy s c i o).trans hb), issue_withSequencer]
    exact .refl _
  case ctrl | maxLenLo | maxLenHi | inLen => exact unlessBusy_agree h c i o rfl rfl
  all_goals exact .of_idle h c i o

theorem hostWrite_agree (offset v : Word) :
    AgreeButIdleSequencer (s.hostWrite offset v) ((s.withSequencer c i o).hostWrite offset v) := by
  unfold State.hostWrite
  rw [withSequencer_params]
  cases targetOf s.params offset with
  | reg r => exact writeReg_agree h c i o r v
  | ibuf k => exact unlessBusy_agree h c i o rfl rfl
  | obuf k => exact .of_idle h c i o
  | reserved => exact .of_idle h c i o

end

/-- Two answers that the host cannot tell apart: the same refusal, or next states that agree. -/
inductive AgreeingOutcomes : (a b : Host.Outcome State Fault Refusal) → Prop
  | next {t u : State} (h : AgreeButIdleSequencer t u) : AgreeingOutcomes (.next t) (.next u)
  | refused (r : Refusal) : AgreeingOutcomes (.refused r) (.refused r)

theorem AgreeingOutcomes.of_next {t : State} {b : Host.Outcome State Fault Refusal}
    (h : AgreeingOutcomes (.next t) b) : ∃ u, b = .next u ∧ AgreeButIdleSequencer t u := by
  cases h with
  | next hu => exact ⟨_, rfl, hu⟩

theorem AgreeingOutcomes.of_refused {r : Refusal} {b : Host.Outcome State Fault Refusal}
    (h : AgreeingOutcomes (.refused r) b) : b = .refused r := by
  cases h
  rfl

theorem AgreeingOutcomes.not_fault {f : Fault} {b : Host.Outcome State Fault Refusal} :
    ¬AgreeingOutcomes (.fault f) b := nofun

/-- With no event an idle block holds its state (60 R314). -/
theorem step_of_idle_nil {s : State} (h : s.phase = .idle) (hp : s.pending = []) : step s = .next s := by
  simp only [step, State.fetch, State.serveHost, h, hp]

/-- An idle block serves its oldest event (20 R75). -/
theorem step_of_idle_cons {s : State} {e : HostEvent} {es : List HostEvent} (h : s.phase = .idle)
    (hp : s.pending = e :: es) : step s = { s with pending := es }.performEvent e := by
  simp only [step, State.fetch, State.serveHost, h, hp]

section
variable {s : State} (h : s.phase = .idle) (c : Word) (i o : Nat)
include h

theorem performEvent_agree (e : HostEvent) :
    AgreeingOutcomes (s.performEvent e) ((s.withSequencer c i o).performEvent e) := by
  cases e with
  | write width offset v =>
    dsimp only [State.performEvent]
    split
    · exact .next (hostWrite_agree h c i o offset v)
    · exact .refused _
  | read width offset =>
    dsimp only [State.performEvent]
    split
    · rw [hostRead_withSequencer]
      have hphase := (hostRead_phase s offset).trans h
      refine .next (.of_idle ?_ c i o)
      exact hphase
    · exact .refused _
  | reset => exact .next (.refl _)

/-- An idle block serves the same event, whatever CUR and the indices hold. -/
theorem step_agree : AgreeingOutcomes (step s) (step (s.withSequencer c i o)) := by
  have hphase : (s.withSequencer c i o).phase = .idle := h
  cases hp : s.pending with
  | nil =>
    rw [step_of_idle_nil h hp, step_of_idle_nil hphase hp]
    exact .next (.of_idle h c i o)
  | cons e es =>
    rw [step_of_idle_cons h hp, step_of_idle_cons hphase hp]
    exact performEvent_agree (s := { s with pending := es }) h c i o e

end

/-- Settles O31: the step of the changed state agrees with that of `s`. -/
theorem idleSequencerIsUnobservable : Obligations.IdleSequencerIsUnobservable := by
  intro s c i o h
  have hagree := step_agree h c i o
  refine ⟨fun r hs => ?_, fun f hs => ?_, fun t hs => ?_⟩ <;> rw [hs] at hagree
  · exact hagree.of_refused
  · exact AgreeingOutcomes.not_fault hagree
  · obtain ⟨u, hu, c', i', o', rfl, hbusy⟩ := hagree.of_next
    exact ⟨c', i', o', hu, hbusy⟩

end Sys2Proof.Machine

/-! SUPPORT. What the address map's windows and reserved places do with a read and a write (20 R60, R62 to R67). -/

namespace Sys2Proof.Machine

/-- The low `n` bits of a word, read back in a 32-bit register. -/
theorem lowBits_toNat (w : Word) {n : Nat} (hn : n ≤ 32) :
    ((w.extractLsb' 0 n).zeroExtend 32).toNat = w.toNat % 2 ^ n := by
  rw [BitVec.zeroExtend, BitVec.toNat_setWidth_of_le hn, BitVec.extractLsb'_toNat, Nat.shiftRight_zero]

section
variable {s : State} {i : Nat} {offset : Word}

theorem hostRead_ibuf (hp : s.params.wf) (hi : i < s.params.ibufDepth) (ho : offset.toNat = 0x40000000 + 4 * i) :
    s.hostRead offset = s.readIbuf i := by
  rw [State.hostRead, targetOf_ibuf hp hi ho]

theorem hostRead_obuf (hi : i < s.params.obufDepth) (ho : offset.toNat = 0x80000000 + 4 * i) :
    s.hostRead offset = s.readObuf i := by
  rw [State.hostRead, targetOf_obuf hi ho]

/-- While idle a write in the IBUF window writes the entry with bits 11:0 of the value (20 R66). -/
theorem hostWrite_ibuf_of_idle (hp : s.params.wf) (h : s.phase = .idle) (hi : i < s.params.ibufDepth)
    (ho : offset.toNat = 0x40000000 + 4 * i) (v : Word) :
    s.hostWrite offset v = { s with ibuf := s.ibuf.write i (v.extractLsb' 0 12) } := by
  rw [State.hostWrite, targetOf_ibuf hp hi ho]
  exact unlessBusy_of_idle ((not_busy_iff s).2 h) _

/-- A written IBUF entry reads as its 12 bits (20 R66). -/
theorem readIbuf_of_written {e : InEntry} (he : s.ibuf.read i = some e) : s.readIbuf i = (e.zeroExtend 32, s) := by
  rw [State.readIbuf, he]

/-- An IBUF entry never written reads as 12 free bits (20 R66; entry 7). -/
theorem readIbuf_of_unwritten (he : s.ibuf.read i = none) :
    s.readIbuf i = (((Config.freeWord s.draws).extractLsb' 0 12).zeroExtend 32, s.draw.2) := by
  rw [State.readIbuf, he, draw_fst]

/-- While idle an OBUF entry at or above OUT_LEN reads as 16 free bits (20 R67; entry 8). -/
theorem readObuf_of_outLen_le (h : s.phase = .idle) (hi : s.outLen.toNat ≤ i) :
    s.readObuf i = (((Config.freeWord s.draws).extractLsb' 0 16).zeroExtend 32, s.draw.2) := by
  rw [State.readObuf, if_neg (not_busy_of_idle h), if_neg (Nat.not_lt.2 hi), draw_fst]

end

/-- Settles O13: the write is IBUF's own, whose reads of the same and of another entry are `Memory`'s laws. -/
theorem idleIbufWrite : Obligations.IdleIbufWrite := by
  intro s i offset v hp h hi ho
  rw [hostWrite_ibuf_of_idle hp h hi ho]
  have hsame := Memory.read_write_same s.ibuf i (v.extractLsb' 0 12)
  refine ⟨rfl, ?readBack, ?stored, fun j hj => Memory.read_write_other _ hj⟩
  case readBack =>
    rw [hostRead_ibuf (s := { s with ibuf := s.ibuf.write i (v.extractLsb' 0 12) }) hp hi ho,
      readIbuf_of_written hsame]
    exact lowBits_toNat v (by decide)
  case stored =>
    rw [BitVec.ofNat_toNat, BitVec.setWidth_eq_extractLsb' (by decide)]
    exact hsame

/-- Settles O15: both accesses go by what the offset names, and it names nothing. -/
theorem reservedOffsetsReadZero : Obligations.ReservedOffsetsReadZero := by
  intro s offset v _ h4 hreg hibuf hobuf
  have ht := targetOf_reserved hreg h4 hibuf hobuf
  constructor
  · rw [State.hostRead, ht]
  · rw [State.hostWrite, ht]

/-- Settles O22: an entry without a value reads as the low bits of the next free value, in either buffer. -/
theorem unwrittenEntriesReadFree : Obligations.UnwrittenEntriesReadFree := by
  refine fun s i offset hp h => ⟨fun hout hi ho => ?obuf, fun hnone hi ho => ?ibuf⟩
  case obuf =>
    rw [hostRead_obuf hi ho, readObuf_of_outLen_le h hout]
    exact lowBits_toNat _ (by decide)
  case ibuf =>
    rw [hostRead_ibuf hp hi ho, readIbuf_of_unwritten hnone]
    exact lowBits_toNat _ (by decide)

/-- Settles O14: a read's state is the state before it or one draw on. -/
theorem readsHaveNoSideEffects : Obligations.ReadsHaveNoSideEffects := by
  intro s offset
  rcases hostRead_state s offset with h | h <;> rw [h]
  · exact ⟨rfl, Nat.le_succ _⟩
  · exact ⟨rfl, le_refl _⟩

/-- Settles O24: an offset in the window is the distance from BLOCK_BASE, which fits 32 bits. -/
theorem busWindow : Obligations.BusWindow := by
  intro busAddress offset
  have hlt := offset.isLt
  unfold offsetOfBus
  split
  case isTrue hwin =>
    rw [Option.some.injEq, ← BitVec.toNat_inj, BitVec.toNat_ofNat, Nat.mod_eq_of_lt hwin.2]
    omega
  case isFalse hout =>
    refine ⟨nofun, fun h => absurd ?_ hout⟩
    omega

end Sys2Proof.Machine

/-! SUPPORT. One host event: which accesses are performed (20 R64), and what an access leaves unchanged while idle
(20 R76) and while BUSY (20 R68, 70 R336). -/

namespace Sys2Proof.Machine

/-- An access is inside the interface exactly when it is 32 bits wide at a multiple of 4 (20 R64). -/
theorem read_wellFormed_iff (width : Nat) (offset : Word) :
    (HostEvent.read width offset).wellFormed = true ↔ width = 32 ∧ offset.toNat % 4 = 0 := by
  simp only [HostEvent.wellFormed, HostEvent.widthOk, HostEvent.alignedOk, Bool.and_eq_true, beq_iff_eq]

theorem write_wellFormed_iff (width : Nat) (offset v : Word) :
    (HostEvent.write width offset v).wellFormed = true ↔ width = 32 ∧ offset.toNat % 4 = 0 :=
  read_wellFormed_iff width offset

theorem hostRead_replies (s : State) (offset : Word) : (s.hostRead offset).2.replies = s.replies := by
  rcases hostRead_state s offset with h | h <;> rw [h]

/-- Settles O17: an event is performed exactly when it is well formed. -/
theorem outsideInterfaceIsRefused : Obligations.OutsideInterfaceIsRefused := by
  refine fun s width offset v => ⟨fun hout => ?refused, fun hin => ?performed⟩
  case refused =>
    have hnot : ¬(width = 32 ∧ offset.toNat % 4 = 0) := by omega
    exact ⟨if_neg (mt (read_wellFormed_iff width offset).1 hnot),
      if_neg (mt (write_wellFormed_iff width offset v).1 hnot)⟩
  case performed =>
    refine ⟨if_pos ((write_wellFormed_iff width offset v).2 hin), ?_⟩
    rw [← hostRead_replies s offset]
    exact if_pos ((read_wellFormed_iff width offset).2 hin)

/-- While BUSY with accesses left to serve, the block serves the oldest event (entry 4). -/
theorem step_of_busy_cons {s : State} {e : HostEvent} {es : List HostEvent} (h : s.phase = .busy)
    (hp : s.pending = e :: es) (hw : 0 < s.wait) :
    step s = { s with pending := es, wait := s.wait - 1 }.performEvent e := by
  simp only [step, State.fetch, State.serveHost, h, hp, if_neg (Nat.ne_of_gt hw)]

/-- Settles O6, phase by phase. -/
theorem stepServesOldestEvent : Obligations.StepServesOldestEvent :=
  fun _ => ⟨step_of_idle_nil, fun _ _ => step_of_idle_cons, fun _ _ => step_of_busy_cons⟩

/-- A write elsewhere than to CMD, while idle, changes at most the configuration and IBUF (10 R20, 20 R76). -/
theorem hostWrite_of_idle_of_ne_cmd {s : State} {offset : Word} (h : s.phase = .idle) (hne : offset ≠ 0x000#32)
    (v : Word) : ∃ ctrl maxLen inLen ibuf,
      s.hostWrite offset v = { s with ctrl := ctrl, maxLen := maxLen, inLen := inLen, ibuf := ibuf } := by
  have hb := (not_busy_iff s).2 h
  unfold State.hostWrite
  cases ht : targetOf s.params offset with
  | reg r =>
    cases r <;> dsimp only [State.writeReg]
    case cmd => exact absurd (BitVec.eq_of_toNat_eq (offset_of_targetOf_reg ht)) hne
    case ctrl | maxLenLo | maxLenHi | inLen => exact ⟨_, _, _, _, unlessBusy_of_idle hb _⟩
    all_goals exact ⟨_, _, _, _, rfl⟩
  | ibuf i => exact ⟨_, _, _, _, unlessBusy_of_idle hb _⟩
  | obuf i => exact ⟨_, _, _, _, rfl⟩
  | reserved => exact ⟨_, _, _, _, rfl⟩

/-- A write while BUSY changes at most IGNORED_WRITE (70 R336, R337). -/
theorem hostWrite_of_busy {s : State} (h : s.phase = .busy) (offset v : Word) :
    ∃ ignoredWrite, s.hostWrite offset v = { s with status := { s.status with ignoredWrite := ignoredWrite } } := by
  rcases hostWrite_cases s offset v with hw | ⟨-, hw⟩ | ⟨hidle, -⟩
  · exact ⟨s.status.ignoredWrite, hw⟩
  · exact ⟨true, hw⟩
  · rw [(busy_iff s).2 h] at hidle
    cases hidle

/-- All that a read can do: count a draw and append its value. -/
theorem hostRead_answered (s : State) (offset : Word) : ∃ draws replies,
    { (s.hostRead offset).2 with replies := (s.hostRead offset).2.replies ++ [(s.hostRead offset).1] } =
      { s with draws := draws, replies := replies } := by
  rcases hostRead_state s offset with h | h <;> rw [h] <;> exact ⟨_, _, rfl⟩

/-- While idle an event other than RESET and a CMD write changes at most the configuration, IBUF and the model's own
record of draws and replies (20 R76). -/
theorem performEvent_next_of_idle {s t : State} {e : HostEvent} (h : s.phase = .idle) (hreset : e ≠ .reset)
    (hcmd : ∀ width v, e ≠ .write width 0x000#32 v) (he : s.performEvent e = .next t) :
    ∃ ctrl maxLen inLen ibuf draws replies, t =
      { s with
        ctrl := ctrl, maxLen := maxLen, inLen := inLen, ibuf := ibuf, draws := draws, replies := replies } := by
  rcases performEvent_cases s e with
    ⟨-, _, _, hp⟩ | ⟨-, ⟨width, offset, v, rfl, hp⟩ | ⟨_, offset, -, hp⟩ | ⟨rfl, -⟩⟩
  · rw [hp] at he
    cases he
  · have hne : offset ≠ 0x000#32 := fun h0 => hcmd width v (h0 ▸ rfl)
    obtain ⟨ctrl, maxLen, inLen, ibuf, hw⟩ := hostWrite_of_idle_of_ne_cmd h hne v
    rw [hp, hw] at he
    cases he
    exact ⟨ctrl, maxLen, inLen, ibuf, _, _, rfl⟩
  · obtain ⟨draws, replies, hr⟩ := hostRead_answered s offset
    rw [hp, hr] at he
    cases he
    exact ⟨_, _, _, _, draws, replies, rfl⟩
  · exact absurd rfl hreset

/-- While BUSY a well-formed access is performed and changes at most IGNORED_WRITE and the model's own record of draws
and replies (20 R68, 70 R336). -/
theorem performEvent_of_busy {s : State} {e : HostEvent} (h : s.phase = .busy) (hwf : e.wellFormed = true)
    (hreset : e ≠ .reset) : ∃ ignoredWrite draws replies, s.performEvent e =
      .next { s with
        status := { s.status with ignoredWrite := ignoredWrite }, draws := draws, replies := replies } := by
  rcases performEvent_cases s e with
    ⟨hbad, -⟩ | ⟨-, ⟨_, offset, v, -, hp⟩ | ⟨_, offset, -, hp⟩ | ⟨rfl, -⟩⟩
  · rw [hwf] at hbad
    cases hbad
  · obtain ⟨ignoredWrite, hw⟩ := hostWrite_of_busy h offset v
    rw [hp, hw]
    exact ⟨ignoredWrite, _, _, rfl⟩
  · obtain ⟨draws, replies, hr⟩ := hostRead_answered s offset
    rw [hp, hr]
    exact ⟨_, draws, replies, rfl⟩
  · exact absurd rfl hreset

/-- Settles O23: STATUS and the results are none of what such an event can change. -/
theorem resultsStableUntilIssue : Obligations.ResultsStableUntilIssue := by
  intro s t e es h hp hreset hcmd hs
  rw [step_of_idle_cons h hp] at hs
  obtain ⟨_, _, _, _, _, _, rfl⟩ :=
    performEvent_next_of_idle (s := { s with pending := es }) h hreset hcmd hs
  exact ⟨h, rfl, rfl, rfl, rfl⟩

/-- Settles O56: the running command, its operands and the results are none of what such an access can change. -/
theorem busyAccessKeepsCommand : Obligations.BusyAccessKeepsCommand := by
  intro s e es h hp hw hwf hreset
  rw [step_of_busy_cons h hp hw]
  obtain ⟨_, _, _, he⟩ :=
    performEvent_of_busy (s := { s with pending := es, wait := s.wait - 1 }) h hwf hreset
  exact ⟨_, he, h, rfl, rfl, rfl, rfl, rfl, rfl, rfl, rfl, rfl, rfl, rfl, rfl, rfl, rfl⟩

end Sys2Proof.Machine

/-! SUPPORT. Every command is a function of its whole input, so an unwritten input entry is its only fault (20 R66,
R68; 70 R340). -/

namespace Sys2Proof.Machine

/-- Every command reads its whole input before anything else (00 R7, 70 R340). -/
theorem exec_eq_withInput (i : Instr) (s : State) : ∃ f, exec i s = withInput s f := by
  cases i <;> exact ⟨_, rfl⟩

/-- The input read fails exactly at the first entry never written (20 R66). -/
theorem input_error_iff {s : State} {k : Nat} : s.input = .error k ↔ s.firstUnwritten k := by
  simp only [State.input, readEntries_error_iff, Nat.zero_le, Nat.zero_add, true_and, forall_const]

/-- Settles O41: what the input read answers decides whether a command faults. -/
theorem unwrittenInputFaults : Obligations.UnwrittenInputFaults := by
  intro i s
  obtain ⟨f, hf⟩ := exec_eq_withInput i s
  rw [hf]
  refine ⟨fun k hk => ?fault, fun hw => ?next⟩
  case fault => rw [withInput, input_error_iff.2 hk]
  case next =>
    obtain ⟨es, hin, -⟩ := input_of_written hw
    exact ⟨s.finish (f es), by rw [withInput, hin]⟩

end Sys2Proof.Machine

/-! SUPPORT. The fields of a command word and what the decoder answers for them (spec 30 R90 to R94). -/

namespace Sys2Proof

/-! The three fields as arithmetic on the word (30 R90). -/

section
variable (w : Word)

theorem CommandFields.ofWord_op_toNat : (CommandFields.ofWord w).op.toNat = w.toNat % 16 := by
  simp [CommandFields.ofWord]

theorem CommandFields.ofWord_sub_toNat : (CommandFields.ofWord w).sub.toNat = w.toNat / 16 % 4 := by
  simp [CommandFields.ofWord, Nat.shiftRight_eq_div_pow]

theorem CommandFields.ofWord_rsv_toNat : (CommandFields.ofWord w).rsv.toNat = w.toNat / 64 := by
  have := w.isLt
  simp only [CommandFields.ofWord, BitVec.extractLsb'_toNat, Nat.shiftRight_eq_div_pow]
  omega

end

theorem CommandFields.toWord_toNat (f : CommandFields) :
    f.toWord.toNat = f.rsv.toNat * 64 + f.sub.toNat * 16 + f.op.toNat := by
  unfold CommandFields.toWord
  rw [BitVec.setWidth_eq, Machine.toNat_append_eq, Machine.toNat_append_eq]
  omega

/-- The three fields cover the word: no bit is lost between them. -/
theorem CommandFields.toWord_ofWord (w : Word) : (CommandFields.ofWord w).toWord = w := by
  apply BitVec.eq_of_toNat_eq
  rw [toWord_toNat, ofWord_rsv_toNat, ofWord_sub_toNat, ofWord_op_toNat]
  omega

/-! The checks of 30 R94 as arithmetic on the word. -/

section
variable (w : Word)

theorem CommandFields.rsvOk_ofWord_iff : (CommandFields.ofWord w).rsvOk = true ↔ w.toNat < 64 := by
  rw [rsvOk, beq_iff_eq, ← BitVec.toNat_inj, ofWord_rsv_toNat, BitVec.toNat_ofNat]
  omega

theorem CommandFields.opOk_ofWord_iff :
    (CommandFields.ofWord w).opOk = true ↔ 1 ≤ w.toNat % 16 ∧ w.toNat % 16 ≤ 3 := by
  simp only [opOk, Bool.or_eq_true, beq_iff_eq, ← BitVec.toNat_inj, ofWord_op_toNat, BitVec.toNat_ofNat]
  omega

theorem CommandFields.subOk_ofWord_iff :
    (CommandFields.ofWord w).subOk = true ↔ w.toNat / 16 % 4 < 2 ∨ w.toNat % 16 = 2 ∧ w.toNat / 16 % 4 = 2 := by
  have hop := ofWord_op_toNat w
  have hsub := ofWord_sub_toNat w
  unfold subOk
  split
  case isTrue h =>
    rw [beq_iff_eq.1 h, BitVec.toNat_ofNat] at hop
    rw [bne_iff_ne, ne_eq, ← BitVec.toNat_inj, BitVec.toNat_ofNat]
    omega
  case isFalse h =>
    rw [beq_iff_eq, ← BitVec.toNat_inj, BitVec.toNat_ofNat] at h
    rw [Bool.or_eq_true, beq_iff_eq, beq_iff_eq, ← BitVec.toNat_inj, ← BitVec.toNat_inj, BitVec.toNat_ofNat,
      BitVec.toNat_ofNat]
    omega

end

/-- The table of 30 R91 and R92 gives a command to its own OP and SUB alone. -/
theorem instrOfOpSub_eq_some_iff {op : BitVec 4} {sub : BitVec 2} {i : Instr} :
    instrOfOpSub op sub = some i ↔ i.fields = ⟨op, sub, 0#26⟩ := by
  revert op sub
  cases i <;> decide

/-- Within the three classes the table has a row for every SUB that is not reserved (30 R92). -/
theorem instrOfOpSub_isSome {f : CommandFields} (hop : f.opOk = true) :
    (instrOfOpSub f.op f.sub).isSome = f.subOk := by
  have rows : ∀ (op : BitVec 4) (sub : BitVec 2), CommandFields.opOk ⟨op, sub, 0#26⟩ = true →
      (instrOfOpSub op sub).isSome = CommandFields.subOk ⟨op, sub, 0#26⟩ := by decide
  exact rows f.op f.sub hop

/-- All that the decoder can answer: one of the three groups of 30 R94, or the command of the fields. -/
theorem decode_cases (w : Word) :
    ((CommandFields.ofWord w).rsvOk = false ∧ decode w = .error .reservedBits) ∨
    ((CommandFields.ofWord w).opOk = false ∧ decode w = .error .reservedOp) ∨
    ((CommandFields.ofWord w).subOk = false ∧ decode w = .error .reservedSub) ∨
    ((CommandFields.ofWord w).wellFormed = true ∧
      ∃ i : Instr, i.fields = CommandFields.ofWord w ∧ decode w = .ok i) := by
  unfold decode CommandFields.wellFormed
  generalize CommandFields.ofWord w = f
  cases hrsv : f.rsvOk with
  | false => exact .inl ⟨rfl, by simp [hrsv]⟩
  | true =>
    cases hop : f.opOk with
    | false => exact .inr (.inl ⟨rfl, by simp [hrsv, hop]⟩)
    | true =>
      have hsub := instrOfOpSub_isSome hop
      cases hi : instrOfOpSub f.op f.sub with
      | none => exact .inr (.inr (.inl ⟨by rw [← hsub, hi]; rfl, by simp [hrsv, hop, hi]⟩))
      | some i =>
        have hfields : i.fields = f := by
          rw [instrOfOpSub_eq_some_iff.1 hi, ← beq_iff_eq.1 hrsv]
        exact .inr (.inr (.inr ⟨by rw [← hsub, hi]; rfl, i, hfields, by simp [hrsv, hop, hi]⟩))

/-- The decoder compares the whole word (30 R93). -/
theorem decode_eq_ok_iff {w : Word} {i : Instr} : decode w = .ok i ↔ w = encode i := by
  constructor
  · intro h
    rcases decode_cases w with ⟨-, hd⟩ | ⟨-, hd⟩ | ⟨-, hd⟩ | ⟨-, j, hj, hd⟩ <;> rw [hd] at h <;> cases h
    rw [encode, hj, CommandFields.toWord_ofWord]
  · rintro rfl
    exact Machine.decode_encode i

/-- `legal(w)` is the three checks of 30 R94 on the fields. -/
theorem legal_eq_wellFormed (w : Word) : legal w = (CommandFields.ofWord w).wellFormed := by
  unfold legal
  rcases decode_cases w with ⟨h, hd⟩ | ⟨h, hd⟩ | ⟨h, hd⟩ | ⟨h, i, -, hd⟩ <;> rw [hd]
  on_goal 4 => exact h.symm
  all_goals simp [CommandFields.wellFormed, h, Except.isOk, Except.toBool]

theorem legal_iff_fields (w : Word) :
    legal w = true ↔ w.toNat < 64 ∧ (1 ≤ w.toNat % 16 ∧ w.toNat % 16 ≤ 3) ∧
      (w.toNat / 16 % 4 < 2 ∨ w.toNat % 16 = 2 ∧ w.toNat / 16 % 4 = 2) := by
  rw [legal_eq_wellFormed, CommandFields.wellFormed, Bool.and_eq_true, Bool.and_eq_true,
    CommandFields.rsvOk_ofWord_iff, CommandFields.opOk_ofWord_iff, CommandFields.subOk_ofWord_iff, and_assoc]

/-- Settles O3: the fields cover the word, and each command's fields make its word. -/
theorem decodeMatchesWholeWord : Obligations.DecodeMatchesWholeWord :=
  ⟨fun _ _ => decode_eq_ok_iff, rfl, rfl, rfl, rfl, rfl, rfl, rfl⟩

/-- Settles O2. -/
theorem decodeOfEncode : Obligations.DecodeOfEncode := fun i _ => Machine.decode_encode i

/-- Settles O1: the seven words are the encoder's; the other three are decoded. -/
theorem sevenWordsDecode : Obligations.SevenWordsDecode :=
  ⟨Machine.decode_encode .encodeRaw, Machine.decode_encode .encodeFramed, Machine.decode_encode .decodeRaw,
    Machine.decode_encode .decodeFramed, Machine.decode_encode .decodeAuto, Machine.decode_encode .frameWrap,
    Machine.decode_encode .frameUnwrap, rfl, rfl, rfl⟩

end Sys2Proof

/-! SUPPORT. An illegal command word written while idle (30 R94, 60 R297). -/

namespace Sys2Proof.Machine

/-- A word that is no command completes at issue (60 R297). -/
theorem issue_of_illegal {s : State} {w : Word} (h : legal w = false) :
    s.issue w =
      ({ s with lastCmd := w, status := { s.status with ignoredWrite := false, done := false } } : State).finish
        illegalOutcome := by
  rcases issue_cases s w with ⟨-, hi⟩ | ⟨hl, -⟩ | ⟨hl, -⟩
  · exact hi
  · rw [h] at hl; cases hl
  · rw [h] at hl; cases hl

/-- Settles O4: the checks on the fields leave the seven words and the three groups, and issue completes the rest. -/
theorem legalExactlySevenWords : Obligations.LegalExactlySevenWords := by
  intro w
  refine ⟨?seven, ?groups, fun s hidle hillegal => ?completes⟩
  case seven =>
    rw [legal_iff_fields]
    simp only [List.mem_cons, List.not_mem_nil, or_false]
    omega
  case groups =>
    rw [← Bool.not_eq_true, legal_iff_fields]
    omega
  case completes =>
    rw [hostWrite_cmd_of_idle hidle, issue_of_illegal hillegal]
    exact ⟨rfl, rfl, rfl, rfl, rfl, rfl, rfl⟩

end Sys2Proof.Machine

/-! SUPPORT. The varint encoder as a recursion on the length alone (spec 42 R190). -/

namespace Sys2Proof.Machine

/-- Any fuel of at least the length gives the same bytes: every pass divides the length by 128. -/
theorem vencLoop_eq_venc {fuel len : Nat} (h : len ≤ fuel) : vencLoop fuel len = venc len := by
  suffices ∀ f g len, len ≤ f → len ≤ g → vencLoop f len = vencLoop g len from this fuel len len h le_rfl
  intro f
  induction f with
  | zero => intro g len hf _; rw [vencLoop_last (by omega), vencLoop_last (by omega)]
  | succ f ih =>
    intro g len hf hg
    rcases Nat.lt_or_ge len 0x80 with hlt | hge
    · rw [vencLoop_last hlt, vencLoop_last hlt]
    · obtain ⟨g, rfl⟩ : ∃ g', g = g' + 1 := ⟨g - 1, by omega⟩
      have hshift : len >>> 7 < len := by rw [Nat.shiftRight_eq_div_pow]; omega
      rw [vencLoop_more hge, vencLoop_more hge, ih g _ (by omega) (by omega)]

/-- A length below 128 is its own varint. -/
theorem venc_of_lt {len : Nat} (h : len < 128) : venc len = [BitVec.ofNat 8 len] := vencLoop_last h

/-- Setting the continuation bit adds 128 to a group of 7 bits. -/
theorem continued_group (len : Nat) : (len &&& 0x7F) ||| 0x80 = len % 128 + 128 := by
  have hgroup : len &&& 0x7F = len % 2 ^ 7 := Nat.and_two_pow_sub_one_eq_mod len 7
  have hlt : len % 2 ^ 7 < 2 ^ 7 := Nat.mod_lt _ (by decide)
  rw [hgroup, Nat.lor_comm]
  exact (Nat.two_pow_add_eq_or_of_lt hlt 1).symm.trans (Nat.add_comm _ _)

/-- A longer length is its low 7 bits with the continuation bit, then the varint of the rest. -/
theorem venc_of_ge {len : Nat} (h : 128 ≤ len) :
    venc len = BitVec.ofNat 8 (len % 128 + 128) :: venc (len / 128) := by
  obtain ⟨k, rfl⟩ : ∃ k, len = k + 1 := ⟨len - 1, by omega⟩
  have hshift : (k + 1) >>> 7 = (k + 1) / 128 := Nat.shiftRight_eq_div_pow _ 7
  rw [venc, vencLoop_more h, continued_group, hshift, vencLoop_eq_venc (by omega)]

/-- Seven bits dropped shorten a number by seven bits. -/
theorem size_eq_size_div_add {len : Nat} (h : 128 ≤ len) : Nat.size len = Nat.size (len / 128) + 7 := by
  apply eq_of_forall_ge_iff
  intro c
  rcases Nat.lt_or_ge c 7 with hc | hc
  · have hlt : 2 ^ c < 2 ^ 7 := Nat.pow_lt_pow_right (by decide) hc
    rw [Nat.size_le]
    omega
  · obtain ⟨d, rfl⟩ := Nat.exists_eq_add_of_le' hc
    rw [Nat.add_le_add_iff_right, Nat.size_le, Nat.size_le, pow_add]
    exact (Nat.div_lt_iff_lt_mul (by decide)).symm

/-- The varint is minimal: one byte for each 7 bits of the length, and one for length 0. -/
theorem venc_length (len : Nat) : (venc len).length = max 1 ((Nat.size len + 6) / 7) := by
  induction len using Nat.strong_induction_on with
  | _ len ih =>
    rcases Nat.lt_or_ge len 128 with hlt | hge
    · have hsize : Nat.size len ≤ 7 := Nat.size_le.2 hlt
      rw [venc_of_lt hlt, List.length_singleton]
      omega
    · have hpos : 0 < Nat.size (len / 128) := Nat.size_pos.2 (by omega)
      rw [venc_of_ge hge, List.length_cons, ih _ (by omega), size_eq_size_div_add hge]
      omega

/-- Byte `i` carries the `i`-th group of 7 bits, and the continuation bit on all but the last. -/
theorem venc_getD_toNat {len i : Nat} (hi : i < (venc len).length) :
    ((venc len).getD i 0#8).toNat =
      len / 2 ^ (7 * i) % 128 + if i + 1 < (venc len).length then 128 else 0 := by
  induction i generalizing len with
  | zero =>
    rcases Nat.lt_or_ge len 128 with hlt | hge
    · have hbyte : len % 256 = len % 128 := by omega
      simpa [venc_of_lt hlt] using hbyte
    · have hpos : 1 ≤ (venc (len / 128)).length := vencLoop_length_pos _ _
      have hbyte : (len % 128 + 128) % 256 = len % 128 + 128 := by omega
      rw [venc_of_ge hge, List.length_cons, if_pos (by omega), List.getD_cons_zero, BitVec.toNat_ofNat]
      simpa using hbyte
  | succ i ih =>
    rcases Nat.lt_or_ge len 128 with hlt | hge
    · rw [venc_of_lt hlt, List.length_singleton] at hi
      omega
    · rw [venc_of_ge hge, List.length_cons] at hi ⊢
      have hdiv : len / 128 / 2 ^ (7 * i) = len / 2 ^ (7 * (i + 1)) := by
        rw [Nat.div_div_eq_div_mul, show 128 * 2 ^ (7 * i) = 2 ^ (7 * (i + 1)) by ring]
      rw [List.getD_cons_succ, ih (by omega), hdiv]
      simp only [Nat.add_lt_add_iff_right]

/-- Settles O48: the bytes' number, then each byte. -/
theorem varintEncoderIsMinimal : Obligations.VarintEncoderIsMinimal :=
  fun len => ⟨venc_length len, fun _ => venc_getD_toNat⟩

end Sys2Proof.Machine

/-! SUPPORT. Which bytes the varint decoder reads from a byte on, and to which value (spec 42 R191). -/

namespace Sys2Proof.Machine

/-- The number whose 7-bit groups are the low 7 bits of the first `n` bytes, least significant first (42 R190). -/
def groupsValue (bs : List Byte) (n : Nat) : Nat :=
  ((List.range n).map fun i => (bs.getD i 0#8).toNat % 128 * 2 ^ (7 * i)).sum

theorem groupsValue_one (b : Byte) (bs : List Byte) : groupsValue (b :: bs) 1 = b.toNat % 128 := by
  simp [groupsValue]

/-- The groups after the first count in units of 128. -/
theorem groupsValue_cons_succ (b : Byte) (bs : List Byte) (n : Nat) :
    groupsValue (b :: bs) (n + 1) = b.toNat % 128 + 2 ^ 7 * groupsValue bs n := by
  unfold groupsValue
  rw [List.range_succ_eq_map, List.map_cons, List.sum_cons, List.map_map, ← List.sum_map_mul_left]
  congr 2
  · simp
  · apply List.map_congr_left
    intro i _
    rw [Function.comp_apply, List.getD_cons_succ, Nat.mul_succ, pow_add]
    ring

/-- `n` bytes of `bs` end a varint of which `i` bytes are read already: all but the last have the continuation bit, and
the tenth byte of the varint carries one bit (42 R191). -/
structure EndsVarint (i : Nat) (bs : List Byte) (n : Nat) : Prop where
  nonempty : 1 ≤ n
  atMostTen : i + n ≤ 10
  present : n ≤ bs.length
  continued : ∀ j, j + 1 < n → 128 ≤ (bs.getD j 0#8).toNat
  last : (bs.getD (n - 1) 0#8).toNat < 128
  tenth : i + n = 10 → (bs.getD (n - 1) 0#8).toNat ≤ 1

theorem not_endsVarint_nil {i n : Nat} : ¬EndsVarint i [] n := by
  intro h
  have hnonempty := h.nonempty
  have hpresent := h.present
  rw [List.length_nil] at hpresent
  omega

section
variable {b : Byte} {bs : List Byte} {i n : Nat}

/-- A byte without the continuation bit ends the varint. -/
theorem endsVarint_cons_of_lt (hb : b.toNat < 128) :
    EndsVarint i (b :: bs) n ↔ n = 1 ∧ i < 10 ∧ (i = 9 → b.toNat ≤ 1) := by
  constructor
  · rintro ⟨hnonempty, hten, -, hcont, -, htenth⟩
    have hn : n = 1 := by
      by_contra hne
      have := hcont 0 (by omega)
      rw [List.getD_cons_zero] at this
      omega
    subst hn
    exact ⟨rfl, by omega, fun h9 => htenth (by omega)⟩
  · rintro ⟨rfl, hi, h9⟩
    exact ⟨le_rfl, by omega, by simp, fun j hj => by omega, hb, fun h => h9 (by omega)⟩

/-- A byte with the continuation bit is followed by the rest of the varint. -/
theorem endsVarint_cons_of_ge (hb : 128 ≤ b.toNat) :
    EndsVarint i (b :: bs) n ↔ ∃ m, n = m + 1 ∧ EndsVarint (i + 1) bs m := by
  constructor
  · rintro ⟨hnonempty, hten, hpresent, hcont, hlast, htenth⟩
    obtain ⟨m, rfl⟩ : ∃ m, n = m + 1 := ⟨n - 1, by omega⟩
    cases m with
    | zero => rw [Nat.zero_add, Nat.sub_self, List.getD_cons_zero] at hlast; omega
    | succ m =>
      refine ⟨m + 1, rfl, by omega, by omega, by simpa using hpresent, fun j hj => ?_, hlast, fun h => ?_⟩
      · exact hcont (j + 1) (by omega)
      · exact htenth (by omega)
  · rintro ⟨m, rfl, hnonempty, hten, hpresent, hcont, hlast, htenth⟩
    obtain ⟨m, rfl⟩ : ∃ k, m = k + 1 := ⟨m - 1, by omega⟩
    refine ⟨by omega, by omega, by simpa using hpresent, fun j hj => ?_, hlast, fun h => ?_⟩
    · cases j with
      | zero => exact hb
      | succ j => exact hcont j (by omega)
    · exact htenth (by omega)

end

/-- A tenth byte above 1 overflows 64 bits (42 R191). -/
theorem vdecLoop_overflow {b : Byte} (bs : List Byte) (x sh : Nat) (hb : b.toNat < 0x80) (h : 1 < b.toNat) :
    vdecLoop (b :: bs) 9 x sh = none := by
  unfold vdecLoop Config.varintMaxBytes
  rw [if_neg (by omega), if_pos hb, if_pos ⟨rfl, h⟩]

/-- A group set above the bits of `x` adds to it. -/
theorem or_shiftLeft_eq_add {x sh : Nat} (hx : x < 2 ^ sh) (g : Nat) : x ||| (g <<< sh) = x + g * 2 ^ sh := by
  rw [Nat.lor_comm, ← Nat.shiftLeft_add_eq_or_of_lt hx, Nat.shiftLeft_eq, Nat.add_comm]

/-- One more group is seven more bits. -/
theorem add_group_lt {x i : Nat} (hx : x < 2 ^ (7 * i)) (b : Byte) :
    x + b.toNat % 128 * 2 ^ (7 * i) < 2 ^ (7 * (i + 1)) := by
  have hgroup : b.toNat % 128 ≤ 127 := by omega
  have hmul := Nat.mul_le_mul_right (2 ^ (7 * i)) hgroup
  rw [Nat.mul_succ, pow_add]
  omega

/-- The decoder from byte `i` on, with the `7 * i` bits of `x` read so far. -/
theorem vdecLoop_eq_some_iff {bs : List Byte} {i x len n : Nat} (hi : i ≤ 10) (hx : x < 2 ^ (7 * i)) :
    vdecLoop bs i x (7 * i) = some (len, n) ↔
      ∃ m, n = i + m ∧ EndsVarint i bs m ∧ len = x + groupsValue bs m * 2 ^ (7 * i) := by
  induction bs generalizing i x with
  | nil => simp [not_endsVarint_nil]
  | cons b bs ih =>
    rcases Nat.lt_or_ge i 10 with hlt | hge
    case inr =>
      obtain rfl : i = 10 := by omega
      simp only [vdecLoop_long, reduceCtorEq, false_iff, not_exists]
      rintro m ⟨-, hm, -⟩
      have hnonempty := hm.nonempty
      have hten := hm.atMostTen
      omega
    rcases Nat.lt_or_ge b.toNat 128 with hb | hb
    case inl =>
      simp only [endsVarint_cons_of_lt hb]
      by_cases h9 : i = 9 → b.toNat ≤ 1
      · rw [vdecLoop_last hlt hb h9, or_shiftLeft_eq_add hx]
        constructor
        · intro h
          cases h
          exact ⟨1, rfl, ⟨rfl, hlt, h9⟩, by rw [groupsValue_one, Nat.mod_eq_of_lt hb]⟩
        · rintro ⟨m, rfl, ⟨rfl, -⟩, rfl⟩
          rw [groupsValue_one, Nat.mod_eq_of_lt hb]
      · obtain ⟨rfl, hover⟩ : i = 9 ∧ 1 < b.toNat := by omega
        rw [vdecLoop_overflow bs x _ hb hover]
        constructor
        · nofun
        · rintro ⟨m, -, ⟨-, -, h⟩, -⟩
          exact absurd h h9
    case inr =>
      have hgroup : b.toNat &&& 0x7F = b.toNat % 128 := Nat.and_two_pow_sub_one_eq_mod _ 7
      have hvalue (m : Nat) : x + b.toNat % 128 * 2 ^ (7 * i) + groupsValue bs m * 2 ^ (7 * (i + 1)) =
          x + groupsValue (b :: bs) (m + 1) * 2 ^ (7 * i) := by
        rw [groupsValue_cons_succ]
        ring
      rw [vdecLoop_more hlt hb, hgroup, or_shiftLeft_eq_add hx, ← Nat.mul_succ, ih hlt (add_group_lt hx b)]
      simp only [endsVarint_cons_of_ge hb]
      constructor
      · rintro ⟨m, rfl, hm, rfl⟩
        exact ⟨m + 1, by omega, ⟨m, rfl, hm⟩, hvalue m⟩
      · rintro ⟨_, rfl, ⟨m, rfl, hm⟩, rfl⟩
        exact ⟨m, by omega, hm, (hvalue m).symm⟩

/-- What the decoder reads from the first byte on. -/
theorem vdec_eq_some_iff {bs : List Byte} {len n : Nat} :
    vdec bs = some (len, n) ↔ EndsVarint 0 bs n ∧ len = groupsValue bs n := by
  have h := vdecLoop_eq_some_iff (bs := bs) (i := 0) (x := 0) (len := len) (n := n) (by omega) (by simp)
  simpa [vdec] using h

/-- Settles O49: the decoder's induction, at its first byte. -/
theorem varintDecoderReads : Obligations.VarintDecoderReads := by
  intro bs len n
  rw [vdec_eq_some_iff]
  constructor
  · rintro ⟨⟨hnonempty, hten, hpresent, hcont, hlast, htenth⟩, hlen⟩
    refine ⟨hnonempty, by omega, hpresent, hcont, hlast, fun h => ?_, hlen⟩
    subst h
    exact htenth rfl
  · rintro ⟨hnonempty, hten, hpresent, hcont, hlast, htenth, hlen⟩
    refine ⟨⟨hnonempty, by omega, hpresent, hcont, hlast, fun h => ?_⟩, hlen⟩
    obtain rfl : n = 10 := by omega
    exact htenth rfl

end Sys2Proof.Machine

/-! SUPPORT. The groups an accumulator step emits, read as one number (spec 20 R69, R70; 40 R131). -/

namespace Sys2Proof.Machine

/-- `bitsOf_shift_or` in the arithmetic of the statements. -/
theorem bitsOf_mul_add (c i acc : Nat) {x : Nat} (hx : x < 2 ^ i) :
    bitsOf (c + i) (acc * 2 ^ i + x) = bitsOf c acc ++ bitsOf i x := by
  rw [← bitsOf_shift_or c i acc x hx, ← Nat.shiftLeft_add_eq_or_of_lt hx, Nat.shiftLeft_eq]

/-- `c` bits and `i` more are a number of `c + i` bits. -/
theorem mul_add_lt_two_pow {c i acc x : Nat} (hacc : acc < 2 ^ c) (hx : x < 2 ^ i) :
    acc * 2 ^ i + x < 2 ^ (c + i) := by
  have hmul := Nat.mul_le_mul_right (2 ^ i) (Nat.succ_le_of_lt hacc)
  rw [Nat.succ_mul] at hmul
  rw [pow_add]
  omega

/-- A number is its bits. -/
theorem eq_of_bitsOf_eq {n x y : Nat} (hx : x < 2 ^ n) (hy : y < 2 ^ n) (h : bitsOf n x = bitsOf n y) : x = y := by
  apply Nat.eq_of_testBit_eq
  intro k
  rcases Nat.lt_or_ge k n with hk | hk
  · have hbit := congrArg (fun l => l[n - 1 - k]?) h
    simp only [bitsOf_getElem? (show n - 1 - k < n by omega), Option.some_inj] at hbit
    rwa [show n - 1 - (n - 1 - k) = k by omega] at hbit
  · have hpow := Nat.pow_le_pow_right (show 0 < 2 by omega) hk
    rw [Nat.testBit_lt_two_pow (hx.trans_le hpow), Nat.testBit_lt_two_pow (hy.trans_le hpow)]

/-- The number whose digits in base 2^w are `y` and then the groups `es`. -/
def appendGroups (w y : Nat) (es : List Nat) : Nat := es.foldl (fun y e => y * 2 ^ w + e) y

/-- Appending groups to a number appends their bits to its bits. -/
theorem appendGroups_bits {w n y : Nat} {es : List Nat} (hy : y < 2 ^ n) (he : ∀ e ∈ es, e < 2 ^ w) :
    appendGroups w y es < 2 ^ (n + es.length * w) ∧
      bitsOf (n + es.length * w) (appendGroups w y es) = bitsOf n y ++ es.flatMap (bitsOf w) := by
  induction es generalizing n y with
  | nil => simp [appendGroups, hy]
  | cons e es ih =>
    obtain ⟨hhead, htail⟩ := List.forall_mem_cons.1 he
    have hlen : n + (e :: es).length * w = n + w + es.length * w := by
      rw [List.length_cons, Nat.succ_mul]
      omega
    obtain ⟨hlt, hbits⟩ := ih (mul_add_lt_two_pow hy hhead) htail
    rw [hlen]
    refine ⟨hlt, hbits.trans ?_⟩
    rw [bitsOf_mul_add n w y hhead, List.flatMap_cons, List.append_assoc]

/-- An accumulator step keeps the value: the emitted groups and then the kept bits are the old bits and then the input
(40 R131, 41 R161). -/
theorem Pushed.value_eq {inW outW x : Nat} {a : Accumulator} {r : List Nat × Accumulator} (h : Pushed inW outW a x r)
    (hv : a.valid) (hx : x < 2 ^ inW) :
    a.acc.toNat * 2 ^ inW + x = appendGroups outW 0 r.1 * 2 ^ r.2.cnt.toNat + r.2.acc.toNat := by
  obtain ⟨hlt, hbits⟩ := appendGroups_bits (n := 0) (y := 0) (by omega) h.emitted
  rw [Nat.zero_add] at hlt hbits
  have hjoined := mul_add_lt_two_pow hlt h.valid
  rw [h.count] at hjoined
  refine eq_of_bitsOf_eq (mul_add_lt_two_pow hv hx) hjoined ?_
  calc bitsOf (a.cnt.toNat + inW) (a.acc.toNat * 2 ^ inW + x)
      = a.bits ++ bitsOf inW x := bitsOf_mul_add _ _ _ hx
    _ = r.1.flatMap (bitsOf outW) ++ r.2.bits := h.bits
    _ = bitsOf (r.1.length * outW) (appendGroups outW 0 r.1) ++ r.2.bits := congrArg (· ++ _) hbits.symm
    _ = bitsOf (r.1.length * outW + r.2.cnt.toNat) (appendGroups outW 0 r.1 * 2 ^ r.2.cnt.toNat + r.2.acc.toNat) :=
      (bitsOf_mul_add _ _ _ h.valid).symm
    _ = _ := by rw [h.count]

end Sys2Proof.Machine

/-! SUPPORT. One PACK_STEP in numbers (spec 40 R131, R136). -/

namespace Sys2Proof.Machine

section
variable {a : Accumulator} (b : Byte)

/-- PACK_STEP from at most 10 valid bits stays in the accumulator's 18 (40 R136). -/
theorem packStep_pushed (hv : a.valid) (hc : a.cnt.toNat ≤ 10) : Pushed 8 11 a b.toNat (a.push 8 11 b.toNat) :=
  push_spec (by omega) hv (by omega) b.isLt

theorem packStep_count (hv : a.valid) (hc : a.cnt.toNat ≤ 10) :
    11 * (packStep a b).1.length + (packStep a b).2.cnt.toNat = a.cnt.toNat + 8 := by
  have hcount := (packStep_pushed b hv hc).count
  simp only [packStep, List.length_map]
  omega

/-- At most 10 bits and 8 more are fewer than two symbols. -/
theorem packStep_length_le_one (hv : a.valid) (hc : a.cnt.toNat ≤ 10) : (packStep a b).1.length ≤ 1 := by
  have hcount := packStep_count b hv hc
  omega

theorem packStep_value (hv : a.valid) (hc : a.cnt.toNat ≤ 10) :
    a.acc.toNat * 2 ^ 8 + b.toNat =
      ((packStep a b).1.headD 0#11).toNat * 2 ^ (packStep a b).2.cnt.toNat + (packStep a b).2.acc.toNat := by
  have hpush := packStep_pushed b hv hc
  have hone := packStep_length_le_one b hv hc
  rw [hpush.value_eq hv b.isLt]
  simp only [packStep, List.length_map] at hone ⊢
  congr 2
  match hes : (a.push 8 11 b.toNat).1, hone with
  | [], _ => rfl
  | [e], _ =>
    have he : e < 2 ^ 11 := hpush.emitted e (by simp [hes])
    simp [appendGroups, Nat.mod_eq_of_lt (show e < 2048 from he)]

end

/-- Settles O43: the step lemmas, and the induction over the bytes from the empty accumulator. -/
theorem packStepMovesBits : Obligations.PackStepMovesBits := by
  refine ⟨fun a b hv hc => ?step, fun bs => ?bytes⟩
  case step =>
    obtain ⟨-, hvalid, hten⟩ := packStep_spec b hv hc
    exact ⟨hvalid, hten, packStep_length_le_one b hv hc, packStep_count b hv hc, packStep_value b hv hc⟩
  case bytes =>
    obtain ⟨-, hvalid, hten⟩ := packBytes_spec bs empty_valid (by decide)
    exact ⟨hten, hvalid⟩

end Sys2Proof.Machine

/-! SUPPORT. The count law, the closed form and the padding of pack (spec 40 R134, R135). -/

namespace Sys2Proof.Machine

/-- Stream bits beyond the end of a byte sequence are 0 (40 R135). -/
theorem byteBit_of_le {bs : List Byte} {k : Nat} (h : 8 * bs.length ≤ k) : byteBit bs k = false := by
  rw [← byteBits_getD]
  exact List.getD_eq_default _ _ (by rwa [byteBits_length])

/-- The count law (40 R134). -/
theorem pack_length (bs : List Byte) : (pack bs).length = (8 * bs.length + 10) / 11 := by
  obtain ⟨p, hp, hbits⟩ := pack_bits bs
  have hlen := congrArg List.length hbits
  rw [symbolBits_length, List.length_append, byteBits_length, List.length_replicate] at hlen
  omega

/-- The closed form (40 R135): the padding bits are the zeros beyond the end of the bytes. -/
theorem symbolBit_pack (bs : List Byte) (k : Nat) : symbolBit (pack bs) k = byteBit bs k := by
  obtain ⟨p, -, hbits⟩ := pack_bits bs
  rw [← symbolBits_getD, hbits]
  rcases Nat.lt_or_ge k (byteBits bs).length with hk | hk
  · rw [List.getD_append _ _ _ _ hk, byteBits_getD]
  · rw [List.getD_append_right _ _ _ _ hk, List.getD_eq_getElem?_getD, List.getElem?_getD_replicate_default_eq,
      byteBit_of_le (byteBits_length bs ▸ hk)]

theorem pack_isPacking (bs : List Byte) : IsPacking bs (pack bs) := ⟨pack_length bs, fun k _ => symbolBit_pack bs k⟩

/-- Settles O45: the count law places the padding, and the closed form says that it is zero. -/
theorem packClosedForm : Obligations.PackClosedForm := by
  intro bs
  have hlen := pack_length bs
  refine ⟨pack_isPacking bs, by omega, by omega, fun k hge hlt => ⟨?zero, by omega⟩⟩
  case zero => rw [symbolBit_pack, byteBit_of_le hge]

end Sys2Proof.Machine

/-! SUPPORT. A command over bytes whose input is written, and ENCODE.RAW (spec 40 R137). -/

namespace Sys2Proof.Machine

/-- A command over bytes whose input is written completes with the outcome of `inputBytes` (30 R96). -/
theorem withBytes_of_written {s : State} (h : s.inputWritten) (f : List Byte → CmdOutcome) :
    withBytes s f = .next (s.finish (f s.inputBytes)) := by
  obtain ⟨es, hin, hbytes, -⟩ := input_of_written h
  rw [withBytes, withInput, hin]
  exact congrArg (fun bs => Host.Outcome.next (s.finish (f bs))) hbytes

theorem exec_encodeRaw {s : State} (h : s.inputWritten) :
    exec .encodeRaw s = .next (s.finish { outcome0 with data := symbolData (pack s.inputBytes) }) :=
  withBytes_of_written h fun bs => { outcome0 with data := symbolData (pack bs) }

/-- The packed input is shorter than OUT_LEN can count. -/
theorem pack_inputBytes_length_lt (s : State) : (pack s.inputBytes).length < 2 ^ 32 := by
  have hlen := s.inLen.isLt
  rw [pack_length, inputBytes_length]
  omega

/-- Settles O33: completion with the packed input, whose laws are O45's. -/
theorem encodeRawResult : Obligations.EncodeRawResult := by
  rintro s ⟨-, -, hwritten⟩
  refine ⟨_, pack s.inputBytes, exec_encodeRaw hwritten, pack_isPacking _, finish_completedWith s _ ?_⟩
  rw [symbolData_length]
  exact pack_inputBytes_length_lt s

end Sys2Proof.Machine

/-! SUPPORT. One UNPACK_STEP in numbers (spec 41 R161). -/

namespace Sys2Proof.Machine

/-- The emitted groups as words of `w` bits are the same number. -/
theorem foldl_map_ofNat_toNat {w : Nat} (y : Nat) {es : List Nat} (h : ∀ e ∈ es, e < 2 ^ w) :
    (es.map (BitVec.ofNat w)).foldl (fun y b => y * 2 ^ w + b.toNat) y = appendGroups w y es := by
  induction es generalizing y with
  | nil => rfl
  | cons e es ih =>
    obtain ⟨hhead, htail⟩ := List.forall_mem_cons.1 h
    rw [List.map_cons, List.foldl_cons, ih _ htail, BitVec.toNat_ofNat, Nat.mod_eq_of_lt hhead]
    rfl

section
variable {a : Accumulator} (v : Symbol)

/-- UNPACK_STEP from at most 7 valid bits stays in the accumulator's 18 (41 R161). -/
theorem unpackStep_pushed (hv : a.valid) (hc : a.cnt.toNat ≤ 7) : Pushed 11 8 a v.toNat (a.push 11 8 v.toNat) :=
  push_spec (by omega) hv (by omega) v.isLt

theorem unpackStep_count (hv : a.valid) (hc : a.cnt.toNat ≤ 7) :
    8 * (unpackStep a v).1.length + (unpackStep a v).2.cnt.toNat = a.cnt.toNat + 11 := by
  have hcount := (unpackStep_pushed v hv hc).count
  simp only [unpackStep, List.length_map]
  omega

/-- A second byte comes out exactly when the old bits and the symbol are 16 or more. -/
theorem unpackStep_length (hv : a.valid) (hc : a.cnt.toNat ≤ 7) :
    (unpackStep a v).1.length = if a.cnt.toNat ≤ 4 then 1 else 2 := by
  have hcount := unpackStep_count v hv hc
  obtain ⟨-, -, hseven⟩ := unpackStep_spec v hv hc
  split <;> omega

theorem unpackStep_value (hv : a.valid) (hc : a.cnt.toNat ≤ 7) :
    a.acc.toNat * 2 ^ 11 + v.toNat =
      ((unpackStep a v).1.foldl (fun x b => x * 2 ^ 8 + b.toNat) 0) * 2 ^ (unpackStep a v).2.cnt.toNat +
        (unpackStep a v).2.acc.toNat := by
  have hpush := unpackStep_pushed v hv hc
  rw [hpush.value_eq hv v.isLt, ← foldl_map_ofNat_toNat 0 hpush.emitted]
  rfl

end

/-- Settles O44: the step lemmas. -/
theorem unpackStepMovesBits : Obligations.UnpackStepMovesBits := by
  intro a v hv hc
  obtain ⟨-, hvalid, hseven⟩ := unpackStep_spec v hv hc
  exact ⟨hvalid, hseven, unpackStep_length v hv hc, unpackStep_count v hv hc, unpackStep_value v hv hc⟩

end Sys2Proof.Machine

/-! SUPPORT. The count law, the closed form and the padding signal of unpack (spec 41 R162 to R164). -/

namespace Sys2Proof.Machine

section
variable {vs : List Symbol} {bs : List Byte} {pad : List Bool} {k : Nat} (h : symbolBits vs = byteBits bs ++ pad)
include h

/-- A symbol stream of whole bytes and then padding: its bits within the bytes. -/
theorem symbolBit_of_lt (hk : k < 8 * bs.length) : symbolBit vs k = byteBit bs k := by
  rw [← symbolBits_getD, h, List.getD_append _ _ _ _ (by rwa [byteBits_length]), byteBits_getD]

/-- A symbol stream of whole bytes and then padding: its bits from the end of the bytes on. -/
theorem symbolBit_of_le (hk : 8 * bs.length ≤ k) : symbolBit vs k = pad.getD (k - 8 * bs.length) false := by
  rw [← symbolBits_getD, h, List.getD_append_right _ _ _ _ (by rwa [byteBits_length]), byteBits_length]

theorem padding_length : 11 * vs.length = 8 * bs.length + pad.length := by
  rw [← symbolBits_length, h, List.length_append, byteBits_length]

/-- The padding is zero exactly when the stream's bits from the end of the bytes on are. -/
theorem padding_zero_iff :
    (∀ b ∈ pad, b = false) ↔ ∀ k < 11 * vs.length, 8 * bs.length ≤ k → symbolBit vs k = false := by
  have hlen := padding_length h
  constructor
  · intro hpad k hlt hle
    have hin : k - 8 * bs.length < pad.length := by omega
    rw [symbolBit_of_le h hle, List.getD_eq_getElem _ _ hin]
    exact hpad _ (List.getElem_mem hin)
  · intro hstream b hb
    obtain ⟨j, hj, rfl⟩ := List.getElem_of_mem hb
    have hbit := hstream (8 * bs.length + j) (by omega) (by omega)
    rwa [symbolBit_of_le h (by omega), Nat.add_sub_cancel_left, List.getD_eq_getElem _ _ hj] at hbit

end

/-- The count law (41 R163). -/
theorem unpack_length (vs : List Symbol) : (unpack vs).bytes.length = 11 * vs.length / 8 := by
  obtain ⟨pad, hbits, hshort, -⟩ := unpack_bits vs
  have hlen := padding_length hbits
  omega

/-- Settles O46: the bytes are the stream's start, and the fewer than 8 bits left over are its end. -/
theorem unpackClosedForm : Obligations.UnpackClosedForm := by
  intro vs
  obtain ⟨pad, hbits, hshort, hcount, hclean⟩ := unpack_bits vs
  have hlen := padding_length hbits
  exact ⟨unpack_length vs, fun k hk => (symbolBit_of_lt hbits hk).symm, by omega, hclean.trans (padding_zero_iff hbits)⟩

end Sys2Proof.Machine

/-! SUPPORT. Unpack is determined by the symbols' bits, and inverts pack (spec 41 R166). -/

namespace Sys2Proof.Machine

/-- A byte sequence is its bits (20 R69). -/
theorem byteBits_injective : Function.Injective byteBits := by
  intro bs cs h
  have hlen := congrArg List.length h
  rw [byteBits_length, byteBits_length] at hlen
  induction bs generalizing cs with
  | nil => exact (List.eq_nil_of_length_eq_zero (by simpa using hlen.symm)).symm
  | cons b bs ih =>
    match cs with
    | [] => simp at hlen
    | c :: cs =>
      have hcons : bitsOf 8 b.toNat ++ byteBits bs = bitsOf 8 c.toNat ++ byteBits cs := h
      obtain ⟨hhead, htail⟩ := List.append_inj hcons (by simp)
      rw [BitVec.eq_of_toNat_eq (eq_of_bitsOf_eq b.isLt c.isLt hhead), ih htail (by simpa using hlen)]

theorem byteBits_replicate_zero (n : Nat) : byteBits (List.replicate n 0#8) = List.replicate (8 * n) false := by
  have hzero : bitsOf 8 (0#8).toNat = List.replicate 8 false := by decide
  rw [byteBits, List.flatMap_replicate, hzero, List.flatten_replicate_replicate, Nat.mul_comm]

/-- Whoever writes the symbols' bits as bytes and then fewer than 8 bits has what unpack returns (41 R163, R164). -/
theorem unpack_eq {vs : List Symbol} {bs : List Byte} {pad : List Bool} (h : symbolBits vs = byteBits bs ++ pad)
    (hshort : pad.length < 8) :
    unpack vs = ⟨bs, decide (∀ b ∈ pad, b = false), BitVec.ofNat 3 pad.length⟩ := by
  obtain ⟨left, hbits, hleft, hcount, hclean⟩ := unpack_bits vs
  have hlen := padding_length h
  have hlen' := padding_length hbits
  obtain ⟨hbytes, rfl⟩ := List.append_inj' (hbits.symm.trans h) (by omega)
  have hpad : (unpack vs).padClean = decide (∀ b ∈ left, b = false) := by
    rw [Bool.eq_iff_iff, hclean, decide_eq_true_iff]
  rw [← byteBits_injective hbytes, ← hpad, ← hcount, BitVec.ofNat_toNat, BitVec.setWidth_eq]

/-- Settles O47: pack's padding, of at most 10 zero bits, is `k` zero bytes and then `p % 8` zero bits. -/
theorem unpackInvertsPack : Obligations.UnpackInvertsPack := by
  intro bs
  obtain ⟨p, hp, hbits⟩ := pack_bits bs
  have hlen := padding_length hbits
  rw [List.length_replicate, pack_length] at hlen
  refine ⟨p, if 8 ≤ p then 1 else 0, by omega, by omega, rfl, ?_⟩
  have hwhole : p = 8 * (if 8 ≤ p then 1 else 0) + p % 8 := by split <;> omega
  have hsplit : symbolBits (pack bs) =
      byteBits (bs ++ List.replicate (if 8 ≤ p then 1 else 0) 0#8) ++ List.replicate (p % 8) false := by
    rw [hbits, byteBits_append, byteBits_replicate_zero, List.append_assoc, List.replicate_append_replicate, ← hwhole]
  rw [unpack_eq hsplit (by rw [List.length_replicate]; omega), List.length_replicate,
    decide_eq_true fun b hb => List.eq_of_mem_replicate hb]

end Sys2Proof.Machine

/-! SUPPORT. The varint decoder inverts the encoder below 2^64, and reads no larger value (spec 42 R190, R191). -/

namespace Sys2Proof.Machine

/-- Before byte `i` a varint has `64 - 7 * i` bits left, 7 more than after it unless it is the tenth. -/
theorem two_pow_bitsLeft {i : Nat} (hi : i < 9) : 2 ^ (64 - 7 * i) = 2 ^ (64 - 7 * (i + 1)) * 128 := by
  rw [show 64 - 7 * i = 64 - 7 * (i + 1) + 7 by omega, pow_add]
  rfl

/-- The encoder's bytes end a varint, whatever follows them, as long as the length fits the bits left of 64. -/
theorem endsVarint_venc {i len : Nat} (rest : List Byte) (hi : i ≤ 9) (hlen : len < 2 ^ (64 - 7 * i)) :
    EndsVarint i (venc len ++ rest) (venc len).length := by
  induction len using Nat.strong_induction_on generalizing i with
  | _ len ih =>
    have htenth : i = 9 → len ≤ 1 := by
      rintro rfl
      omega
    rcases Nat.lt_or_ge len 128 with hlt | hge
    · have hbyte : (BitVec.ofNat 8 len).toNat = len := Nat.mod_eq_of_lt (by omega)
      rw [venc_of_lt hlt, List.singleton_append, endsVarint_cons_of_lt (by omega), hbyte]
      exact ⟨rfl, by omega, htenth⟩
    · have hbyte : (BitVec.ofNat 8 (len % 128 + 128)).toNat = len % 128 + 128 := Nat.mod_eq_of_lt (by omega)
      have hleft := two_pow_bitsLeft (show i < 9 by omega)
      rw [venc_of_ge hge, List.cons_append, endsVarint_cons_of_ge (by omega)]
      exact ⟨_, rfl, ih _ (by omega) (by omega) (by omega)⟩

/-- The encoder's groups of 7 bits are those of the length. -/
theorem groupsValue_venc (len : Nat) (rest : List Byte) : groupsValue (venc len ++ rest) (venc len).length = len := by
  induction len using Nat.strong_induction_on with
  | _ len ih =>
    rcases Nat.lt_or_ge len 128 with hlt | hge
    · rw [venc_of_lt hlt, List.singleton_append, List.length_singleton, groupsValue_one, BitVec.toNat_ofNat]
      omega
    · rw [venc_of_ge hge, List.cons_append, List.length_cons, groupsValue_cons_succ, ih _ (by omega),
        BitVec.toNat_ofNat]
      omega

/-- The bytes that end a varint hold no more than the bits left of 64: the tenth carries one bit. -/
theorem groupsValue_lt_of_endsVarint {bs : List Byte} {i n : Nat} (h : EndsVarint i bs n) :
    groupsValue bs n < 2 ^ (64 - 7 * i) := by
  induction bs generalizing i n with
  | nil => exact absurd h not_endsVarint_nil
  | cons b bs ih =>
    rcases Nat.lt_or_ge b.toNat 128 with hlt | hge
    · obtain ⟨rfl, hi, htenth⟩ := (endsVarint_cons_of_lt hlt).1 h
      rw [groupsValue_one, Nat.mod_eq_of_lt hlt]
      rcases Nat.lt_or_eq_of_le (Nat.le_of_lt_succ hi) with hi | rfl
      · have hpos := Nat.two_pow_pos (64 - 7 * (i + 1))
        have hleft := two_pow_bitsLeft hi
        omega
      · have hbit := htenth rfl
        omega
    · obtain ⟨m, rfl, hm⟩ := (endsVarint_cons_of_ge hge).1 h
      have hnonempty := hm.nonempty
      have hten := hm.atMostTen
      have hrest := ih hm
      have hleft := two_pow_bitsLeft (show i < 9 by omega)
      rw [groupsValue_cons_succ]
      omega

/-- The decoder reads back what the encoder wrote (42 R190, R191). -/
theorem vdec_venc_append {len : Nat} (hlen : len < 2 ^ 64) (rest : List Byte) :
    vdec (venc len ++ rest) = some (len, (venc len).length) :=
  vdec_eq_some_iff.2 ⟨endsVarint_venc rest (by omega) hlen, (groupsValue_venc len rest).symm⟩

/-- The decoder reads no value of 2^64 or more (42 R191). -/
theorem vdec_lt {bs : List Byte} {len n : Nat} (h : vdec bs = some (len, n)) : len < 2 ^ 64 := by
  obtain ⟨hends, rfl⟩ := vdec_eq_some_iff.1 h
  exact groupsValue_lt_of_endsVarint hends

/-- Settles O50: the encoder's bytes end a varint of the length's own groups, and no varint holds more than 64 bits. -/
theorem varintRoundTrip : Obligations.VarintRoundTrip :=
  ⟨fun _ rest hlen => vdec_venc_append hlen rest, fun _ _ _ => vdec_lt⟩

end Sys2Proof.Machine

/-! SUPPORT. What an unwrap answers at each end of its chain, and the commands of the framer (spec 42 R195 to R204). -/

namespace Sys2Proof.Machine

section
variable {p : Params} {maxLen : Nat} {u : List Byte}

/-- Without the magic there is no header (42 R195). -/
theorem unwrap_of_not_magic (hmagic : u.take 8 ≠ p.magicBytes) : unwrap p maxLen u = .badHeader := by
  rw [unwrap, Bool.eq_false_iff.2 (mt (magicMatch_iff p u).1 hmagic)]
  rfl

/-- With the magic and no readable length there is no header either (42 R196). -/
theorem unwrap_of_vdec_none (hmagic : u.take 8 = p.magicBytes) (hlen : vdec (u.drop 8) = none) :
    unwrap p maxLen u = .badHeader := by
  rw [unwrap, (magicMatch_iff p u).2 hmagic, Config.magicLen, hlen]
  rfl

/-- With a readable length the ceiling comes before the truncation (42 R197 to R199). -/
theorem unwrap_of_vdec_some {len n : Nat} (hmagic : u.take 8 = p.magicBytes)
    (hlen : vdec (u.drop 8) = some (len, n)) :
    unwrap p maxLen u =
      if maxLen < len then .absurd len (8 + n)
      else if u.length - (8 + n) < len then .truncated (u.drop (8 + n)) len (8 + n)
      else .ok ((u.drop (8 + n)).take len) len (8 + n) := by
  rw [unwrap, (magicMatch_iff p u).2 hmagic, Config.magicLen, hlen]
  rfl

end

/-- The outcome of an unwrap follows the chain, on any base: `O0` or `Ob` (42 R200, R203; 43 R244). -/
theorem framedOutcome_framedDecision (s : State) (base : CmdOutcome) (u : List Byte) :
    FramedDecision s base u (framedOutcome s.ctrl base (unwrap s.params s.maxLen.toNat u)) where
  noMagic hmagic := by rw [unwrap_of_not_magic hmagic, framedOutcome]
  noVarint hmagic hlen := by rw [unwrap_of_vdec_none hmagic hlen, framedOutcome]
  absurd len n hmagic hlen hover := by
    rw [unwrap_of_vdec_some hmagic hlen, if_pos hover]
    rfl
  truncatedPartial len n hmagic hlen hle hshort hpartial := by
    rw [unwrap_of_vdec_some hmagic hlen, if_neg (by omega), if_pos hshort]
    exact if_pos hpartial
  truncatedFail len n hmagic hlen hle hshort hpartial := by
    rw [unwrap_of_vdec_some hmagic hlen, if_neg (by omega), if_pos hshort]
    exact if_neg (Bool.eq_false_iff.1 hpartial)
  accept len n hmagic hlen hle hwhole := by
    rw [unwrap_of_vdec_some hmagic hlen, if_neg (by omega), if_neg (by omega)]
    rfl

/-- A command that ran on a ready state ended with its outcome: the data fit OBUF, so OUT_LEN counts them (10 R47). -/
theorem exec_completedWith {i : Instr} {s : State} {o : CmdOutcome} (h : s.ready)
    (he : exec i s = .next (s.finish o)) : CompletedWith s (s.finish o) o := by
  obtain ⟨hwf, hcap, -⟩ := h
  obtain ⟨o', hfinish, hsound⟩ := exec_next_sound hwf hcap he
  obtain rfl : o = o' := congrArg State.outcome hfinish
  obtain ⟨-, -, -, hdepth⟩ := hwf
  have hfits := hsound.data.fits
  exact finish_completedWith s o (by omega)

/-- The outcome of a command that builds the frame of `len` input bytes, with the result `data` (42 R201, R202). -/
def frameOutcome (len : Nat) (data : List OutEntry) : CmdOutcome :=
  { outcome0 with
    data := data, framed := true, declLen := BitVec.ofNat 64 len
    hdrLen := BitVec.ofNat 32 (8 + (venc len).length) }

section
variable {s : State}

theorem exec_encodeFramed (h : s.inputWritten) : exec .encodeFramed s =
    .next (s.finish (frameOutcome s.inLen.toNat (symbolData (pack (frameOf s.params s.inputBytes))))) := by
  rw [← inputBytes_length s]
  exact withBytes_of_written h fun bs => frameOutcome bs.length (symbolData (pack (frameOf s.params bs)))

theorem exec_frameWrap (h : s.inputWritten) : exec .frameWrap s =
    .next (s.finish (frameOutcome s.inLen.toNat (byteData (frameOf s.params s.inputBytes)))) := by
  rw [← inputBytes_length s]
  exact withBytes_of_written h fun bs => frameOutcome bs.length (byteData (frameOf s.params bs))

theorem exec_frameUnwrap (h : s.inputWritten) : exec .frameUnwrap s =
    .next (s.finish (framedOutcome s.ctrl outcome0 (unwrap s.params s.maxLen.toNat s.inputBytes))) :=
  withBytes_of_written h fun bs => framedOutcome s.ctrl outcome0 (unwrap s.params s.maxLen.toNat bs)

end

/-- Settles O34: completion with the packed frame, whose laws are O45's. -/
theorem encodeFramedResult : Obligations.EncodeFramedResult := by
  intro s hready
  have ⟨_, _, hwritten⟩ := hready
  have hexec := exec_encodeFramed hwritten
  exact ⟨_, _, hexec, pack_isPacking _, exec_completedWith hready hexec⟩

/-- Settles O35: completion with the frame's bytes. -/
theorem frameWrapResult : Obligations.FrameWrapResult := by
  intro s hready
  have ⟨_, _, hwritten⟩ := hready
  have hexec := exec_frameWrap hwritten
  exact ⟨_, hexec, exec_completedWith hready hexec⟩

/-- Settles O36: completion with the outcome of the unwrap, which follows the chain. -/
theorem frameUnwrapResult : Obligations.FrameUnwrapResult := by
  intro s hready
  have ⟨_, _, hwritten⟩ := hready
  have hexec := exec_frameUnwrap hwritten
  exact ⟨_, _, hexec, framedOutcome_framedDecision s outcome0 s.inputBytes, exec_completedWith hready hexec⟩

end Sys2Proof.Machine

/-! SUPPORT. A DECODE whose input is written and has no absent token: the prologue's two ends (spec 43 R240 to R242). -/

namespace Sys2Proof.Machine

/-- Strict padding ends every DECODE of this input (43 R242). -/
abbrev State.endsByPadding (s : State) : Prop :=
  s.ctrl.strictPadding = true ∧ (unpack s.inputSymbols).padClean = false

/-- The outcome of a DECODE of this input whose mode answers `f` where the padding does not end it (43 R241, R242). -/
def State.decodeOutcome (s : State) (f : Unpacked → CmdOutcome) : CmdOutcome :=
  if s.endsByPadding then strictPaddingOutcome (unpack s.inputSymbols) else f (unpack s.inputSymbols)

section
variable {s : State} {f : Unpacked → CmdOutcome}

theorem decodeOutcome_of_endsByPadding (h : s.endsByPadding) :
    s.decodeOutcome f = strictPaddingOutcome (unpack s.inputSymbols) := if_pos h

theorem decodeOutcome_of_not_endsByPadding (h : ¬s.endsByPadding) :
    s.decodeOutcome f = f (unpack s.inputSymbols) := if_neg h

theorem withTokens_eq_decodeOutcome (hwritten : s.inputWritten) (hpresent : s.noneAbsent) :
    withTokens s f = .next (s.finish (s.decodeOutcome f)) := by
  rw [withTokens_of_present hwritten hpresent, State.decodeOutcome]
  congr 2
  exact if_congr (badPadding_iff _ _) rfl rfl

end

/-- The outcome of DECODE.RAW (43 R243). -/
abbrev State.rawResult (s : State) : CmdOutcome := s.decodeOutcome rawOutcome

/-- The outcome of DECODE.FRAMED (43 R244). -/
abbrev State.framedResult (s : State) : CmdOutcome :=
  s.decodeOutcome fun x => framedOutcome s.ctrl (decodeBase x) (unwrap s.params s.maxLen.toNat x.bytes)

/-- The outcome of DECODE.AUTO (43 R246). -/
abbrev State.autoResult (s : State) : CmdOutcome :=
  s.decodeOutcome (autoOutcome s.params s.ctrl s.maxLen.toNat)

section
variable {s : State} (hwritten : s.inputWritten) (hpresent : s.noneAbsent)
include hwritten hpresent

theorem exec_decodeRaw : exec .decodeRaw s = .next (s.finish s.rawResult) :=
  withTokens_eq_decodeOutcome hwritten hpresent

theorem exec_decodeFramed : exec .decodeFramed s = .next (s.finish s.framedResult) :=
  withTokens_eq_decodeOutcome hwritten hpresent

theorem exec_decodeAuto : exec .decodeAuto s = .next (s.finish s.autoResult) :=
  withTokens_eq_decodeOutcome hwritten hpresent

end

/-- A DECODE mode that answers `f` completes by strict padding or with `f` of the unpack (43 R241, R242, R47). -/
theorem decode_completedWith {i : Instr} {s : State} {f : Unpacked → CmdOutcome} (hready : s.ready)
    (hexec : exec i s = .next (s.finish (s.decodeOutcome f))) :
    (s.endsByPadding →
      CompletedWith s (s.finish (s.decodeOutcome f)) (strictPaddingOutcome (unpack s.inputSymbols))) ∧
    (¬s.endsByPadding → CompletedWith s (s.finish (s.decodeOutcome f)) (f (unpack s.inputSymbols))) := by
  have hdone := exec_completedWith hready hexec
  refine ⟨fun hpad => ?strict, fun hpad => ?mode⟩
  case strict => rwa [decodeOutcome_of_endsByPadding hpad] at hdone ⊢
  case mode => rwa [decodeOutcome_of_not_endsByPadding hpad] at hdone ⊢

/-- Settles O37: raw mode answers every unpacked byte. -/
theorem decodeRawResult : Obligations.DecodeRawResult := by
  intro s hready hpresent
  have ⟨_, _, hwritten⟩ := hready
  have hexec := exec_decodeRaw hwritten hpresent
  exact ⟨_, _, hexec, unpackClosedForm _, decode_completedWith hready hexec⟩

/-- Settles O38: framed mode answers the outcome of the unwrap, which follows the chain. -/
theorem decodeFramedResult : Obligations.DecodeFramedResult := by
  intro s hready hpresent
  have ⟨_, _, hwritten⟩ := hready
  have hexec := exec_decodeFramed hwritten hpresent
  obtain ⟨hstrict, hmode⟩ := decode_completedWith hready hexec
  exact ⟨_, _, hexec, unpackClosedForm _, hstrict, fun hpad =>
    ⟨_, framedOutcome_framedDecision s _ _, hmode hpad⟩⟩

end Sys2Proof.Machine

/-! SUPPORT. The ordered table of auto mode (spec 43 R245 to R247). -/

namespace Sys2Proof.Machine

/-- What auto mode makes of an unwrap where the magic is there (43 R246 rows 2 to 6). -/
def autoFrameOutcome (p : Params) (c : Ctrl) (x : Unpacked) : FrameResult → CmdOutcome
  | .ok payload len hdr => frameOkOutcome (decodeBase x) payload len hdr
  | .badHeader => fallbackOutcome x .badHeader
  | .absurd len hdr => (fallbackOutcome x .absurdLength).withFrame len hdr
  | .truncated available len hdr =>
    if c.allowPartial then partialOutcome (decodeBase x) available len hdr else autoTruncOutcome p x len hdr

section
variable {p : Params} {c : Ctrl} {maxLen len hdr : Nat} {x : Unpacked}

/-- Row 1: without the magic the bitstream is raw (43 R245). -/
theorem autoOutcome_of_not_magic (hmagic : x.bytes.take 8 ≠ p.magicBytes) :
    autoOutcome p c maxLen x = rawOutcome x := by
  rw [autoOutcome, Bool.eq_false_iff.2 (mt (magicMatch_iff p x.bytes).1 hmagic)]
  rfl

/-- Rows 2 to 6: with the magic the unwrap decides (43 R246). -/
theorem autoOutcome_of_magic (hmagic : x.bytes.take 8 = p.magicBytes) :
    autoOutcome p c maxLen x = autoFrameOutcome p c x (unwrap p maxLen x.bytes) := by
  rw [autoOutcome, (magicMatch_iff p x.bytes).2 hmagic]
  cases unwrap p maxLen x.bytes <;> rfl

theorem autoTruncOutcome_of_hardFail (h : p.autoTrunc = .hardFail) :
    autoTruncOutcome p x len hdr = truncatedOutcome (decodeBase x) len hdr := by
  rw [autoTruncOutcome, h]
  rfl

theorem autoTruncOutcome_of_fallbackRaw (h : p.autoTrunc = .fallbackRaw) :
    autoTruncOutcome p x len hdr = (fallbackOutcome x .truncated).withFrame len hdr := by
  rw [autoTruncOutcome, h]

end

/-- The outcome of auto mode follows the ordered table (43 R245 to R247). -/
theorem autoOutcome_autoDecision (s : State) (x : Unpacked) :
    AutoDecision s (decodeBase x) x.bytes (autoOutcome s.params s.ctrl s.maxLen.toNat x) where
  row1 hmagic := autoOutcome_of_not_magic hmagic
  row2 len n hmagic hlen hle hwhole := by
    rw [autoOutcome_of_magic hmagic, unwrap_of_vdec_some hmagic hlen, if_neg (by omega), if_neg (by omega)]
    rfl
  row3 hmagic hlen := by
    rw [autoOutcome_of_magic hmagic, unwrap_of_vdec_none hmagic hlen]
    rfl
  row4 len n hmagic hlen hover := by
    rw [autoOutcome_of_magic hmagic, unwrap_of_vdec_some hmagic hlen, if_pos hover]
    rfl
  row5 len n hmagic hlen hle hshort hpartial := by
    rw [autoOutcome_of_magic hmagic, unwrap_of_vdec_some hmagic hlen, if_neg (by omega), if_pos hshort]
    exact if_pos hpartial
  row6HardFail len n hmagic hlen hle hshort hpartial hparam := by
    rw [autoOutcome_of_magic hmagic, unwrap_of_vdec_some hmagic hlen, if_neg (by omega), if_pos hshort]
    exact (if_neg (Bool.eq_false_iff.1 hpartial)).trans (autoTruncOutcome_of_hardFail hparam)
  row6Fallback len n hmagic hlen hle hshort hpartial hparam := by
    rw [autoOutcome_of_magic hmagic, unwrap_of_vdec_some hmagic hlen, if_neg (by omega), if_pos hshort]
    exact (if_neg (Bool.eq_false_iff.1 hpartial)).trans (autoTruncOutcome_of_fallbackRaw hparam)

/-- Settles O39: auto mode answers by the table. -/
theorem decodeAutoResult : Obligations.DecodeAutoResult := by
  intro s hready hpresent
  have ⟨_, _, hwritten⟩ := hready
  have hexec := exec_decodeAuto hwritten hpresent
  obtain ⟨hstrict, hmode⟩ := decode_completedWith hready hexec
  exact ⟨_, _, hexec, unpackClosedForm _, hstrict, fun hpad =>
    ⟨_, autoOutcome_autoDecision s _, hmode hpad⟩⟩

end Sys2Proof.Machine

/-! SUPPORT. The absent-token check of every DECODE (spec 43 R240, 60 R292). -/

namespace Sys2Proof.Machine

/-- Every DECODE mode is one prologue with its own continuation (43 R240). -/
theorem exec_decode_eq_withTokens {i : Instr} (hi : i ∈ [Instr.decodeRaw, .decodeFramed, .decodeAuto]) (s : State) :
    ∃ f, exec i s = withTokens s f := by
  simp only [List.mem_cons, List.not_mem_nil, or_false] at hi
  rcases hi with rfl | rfl | rfl <;> exact ⟨_, rfl⟩

/-- Settles O40: the prologue ends at the first absent token, before any mode's own part. -/
theorem absentTokenIsBadWord : Obligations.AbsentTokenIsBadWord := by
  intro s p hready habsent i hi
  have ⟨_, _, hwritten⟩ := hready
  have ⟨hp, _⟩ := habsent
  obtain ⟨f, hf⟩ := exec_decode_eq_withTokens hi s
  have hexec := hf.trans (withTokens_of_absent hwritten habsent f)
  have hpos : p < 2 ^ 32 := hp.trans s.inLen.isLt
  exact ⟨_, hexec, exec_completedWith hready hexec, Nat.mod_eq_of_lt hpos⟩

end Sys2Proof.Machine

/-! SUPPORT. The bytes of a stream's start and end: packed symbols cut off or followed by more (spec 41 R163, R164). -/

namespace Sys2Proof.Machine

/-- Of two byte sequences whose bits start the same stream, the shorter starts the longer (20 R69). -/
theorem isPrefix_of_byteBits_isPrefix {bs cs : List Byte} {stream : List Bool} (hbs : byteBits bs <+: stream)
    (hcs : byteBits cs <+: stream) (hlen : bs.length ≤ cs.length) : bs <+: cs := by
  have hbits : byteBits bs <+: byteBits cs :=
    List.prefix_of_prefix_length_le hbs hcs (by simpa only [byteBits_length] using Nat.mul_le_mul_left 8 hlen)
  obtain ⟨more, hmore⟩ := hbits
  rw [← List.take_append_drop bs.length cs, byteBits_append] at hmore
  obtain ⟨htake, -⟩ := List.append_inj hmore (by
    rw [byteBits_length, byteBits_length, List.length_take, Nat.min_eq_left hlen])
  rw [List.prefix_iff_eq_take]
  exact byteBits_injective htake

theorem byteBits_unpack_isPrefix (vs : List Symbol) : byteBits (unpack vs).bytes <+: symbolBits vs := by
  obtain ⟨pad, hbits, -⟩ := unpack_bits vs
  exact ⟨pad, hbits.symm⟩

theorem byteBits_isPrefix_pack (bs : List Byte) : byteBits bs <+: symbolBits (pack bs) := by
  obtain ⟨p, -, hbits⟩ := pack_bits bs
  exact ⟨_, hbits.symm⟩

theorem symbolBits_isPrefix {vs ws : List Symbol} (h : vs <+: ws) : symbolBits vs <+: symbolBits ws := by
  obtain ⟨more, rfl⟩ := h
  exact ⟨symbolBits more, (symbolBits_append vs more).symm⟩

/-- With its last symbols cut off, a packed sequence unpacks to a start of it. -/
theorem unpack_take_pack_bytes {bs : List Byte} {m : Nat} (hm : m < (pack bs).length) :
    (unpack ((pack bs).take m)).bytes = bs.take (11 * m / 8) ∧ 11 * m / 8 < bs.length := by
  have hpack := pack_length bs
  have hlen := unpack_length ((pack bs).take m)
  rw [List.length_take, Nat.min_eq_left hm.le] at hlen
  have hshort : 11 * m / 8 < bs.length := by omega
  have hprefix := isPrefix_of_byteBits_isPrefix
    ((byteBits_unpack_isPrefix _).trans (symbolBits_isPrefix (List.take_prefix m (pack bs))))
    (byteBits_isPrefix_pack bs) (by omega)
  rw [List.prefix_iff_eq_take, hlen] at hprefix
  exact ⟨hprefix, hshort⟩

/-- With symbols after it, a packed sequence unpacks to itself and more (41 R164). -/
theorem unpack_pack_append_bytes (bs : List Byte) (junk : List Symbol) :
    ∃ more, (unpack (pack bs ++ junk)).bytes = bs ++ more := by
  have hlen := unpack_length (pack bs ++ junk)
  rw [List.length_append, pack_length] at hlen
  obtain ⟨more, hmore⟩ := isPrefix_of_byteBits_isPrefix
    ((byteBits_isPrefix_pack bs).trans (symbolBits_isPrefix (List.prefix_append (pack bs) junk)))
    (byteBits_unpack_isPrefix (pack bs ++ junk)) (by omega)
  exact ⟨more, hmore.symm⟩

/-- Unpack returns what was packed, at most one zero byte more, and clean padding (41 R166). -/
theorem unpack_pack (bs : List Byte) : ∃ k ≤ 1,
    (unpack (pack bs)).bytes = bs ++ List.replicate k 0#8 ∧ (unpack (pack bs)).padClean = true := by
  obtain ⟨p, k, -, -, hk, hunpack⟩ := unpackInvertsPack bs
  rw [hunpack]
  exact ⟨k, by split at hk <;> omega, rfl, rfl⟩

end Sys2Proof.Machine

/-! SUPPORT. The unwrap of a frame: whole, followed by more, or cut off (spec 42 R195 to R199). -/

namespace Sys2Proof.Machine

theorem wrapHdrLen_eq (len : Nat) : wrapHdrLen len = 8 + (venc len).length := rfl

/-- The header of a frame of `len` bytes: magic and varint (30 R100, R102). -/
def headerBytes (p : Params) (len : Nat) : List Byte := p.magicBytes ++ venc len

theorem headerBytes_length (p : Params) (len : Nat) : (headerBytes p len).length = wrapHdrLen len := by
  rw [headerBytes, List.length_append, magicBytes_length, wrapHdrLen_eq]

theorem frameOf_eq_headerBytes (p : Params) (bs : List Byte) : frameOf p bs = headerBytes p bs.length ++ bs := rfl

/-- A frame depends on the magic alone of the parameters (30 R100). -/
theorem frameOf_congr {p q : Params} (h : p.magic = q.magic) (bs : List Byte) : frameOf p bs = frameOf q bs := by
  simp only [frameOf, Params.magicBytes, h]

/-- The unwrap of a header and what follows it. -/
theorem unwrap_headerBytes_append {len : Nat} (p : Params) (maxLen : Nat) (rest : List Byte) (hlen : len < 2 ^ 64) :
    (headerBytes p len ++ rest).take 8 = p.magicBytes ∧
      unwrap p maxLen (headerBytes p len ++ rest) =
        if maxLen < len then .absurd len (wrapHdrLen len)
        else if rest.length < len then .truncated rest len (wrapHdrLen len)
        else .ok (rest.take len) len (wrapHdrLen len) := by
  have hmagic : (headerBytes p len ++ rest).take 8 = p.magicBytes := by
    rw [headerBytes, List.append_assoc, List.take_left' (magicBytes_length p)]
  have hvarint : vdec ((headerBytes p len ++ rest).drop 8) = some (len, (venc len).length) := by
    rw [headerBytes, List.append_assoc, List.drop_left' (magicBytes_length p), vdec_venc_append hlen]
  have hrest : (headerBytes p len ++ rest).length - wrapHdrLen len = rest.length := by
    rw [List.length_append, headerBytes_length, Nat.add_sub_cancel_left]
  refine ⟨hmagic, ?_⟩
  rw [unwrap_of_vdec_some hmagic hvarint, ← wrapHdrLen_eq, hrest, List.drop_left' (headerBytes_length p len)]

/-- The unwrap of a whole frame, whatever follows it (42 R197, R199). -/
theorem unwrap_frameOf_append {bs : List Byte} (p : Params) (maxLen : Nat) (more : List Byte)
    (hlen : bs.length < 2 ^ 64) :
    (frameOf p bs ++ more).take 8 = p.magicBytes ∧
      unwrap p maxLen (frameOf p bs ++ more) =
        if maxLen < bs.length then .absurd bs.length (wrapHdrLen bs.length)
        else .ok bs bs.length (wrapHdrLen bs.length) := by
  obtain ⟨hmagic, hunwrap⟩ := unwrap_headerBytes_append p maxLen (bs ++ more) hlen
  rw [frameOf_eq_headerBytes, List.append_assoc]
  refine ⟨hmagic, ?_⟩
  rw [hunwrap, if_neg (show ¬(bs ++ more).length < bs.length by rw [List.length_append]; omega), List.take_left]

/-- A varint without its last byte is unreadable: every byte left has its continuation bit set (42 R191). -/
theorem vdec_take_venc {len j : Nat} (hj : j < (venc len).length) : vdec ((venc len).take j) = none := by
  rw [Option.eq_none_iff_forall_ne_some]
  rintro ⟨value, n⟩ h
  obtain ⟨hends, -⟩ := vdec_eq_some_iff.1 h
  have hnonempty := hends.nonempty
  have hpresent := hends.present
  have hlast := hends.last
  rw [List.length_take] at hpresent
  have hin : n - 1 < (venc len).length := by omega
  have hbyte := venc_getD_toNat hin
  rw [if_pos (by omega)] at hbyte
  rw [List.getD_eq_getElem?_getD, List.getElem?_take_of_lt (by omega), ← List.getD_eq_getElem?_getD] at hlast
  omega

section
variable {p : Params} {bs : List Byte} {m maxLen : Nat}

/-- Fewer than 8 bytes hold no magic. -/
theorem take_frameOf_not_magic (hm : m < 8) : ((frameOf p bs).take m).take 8 ≠ p.magicBytes := by
  intro h
  have hlen := congrArg List.length h
  rw [List.length_take, List.length_take, magicBytes_length] at hlen
  omega

theorem take_frameOf_magic (hm : 8 ≤ m) : ((frameOf p bs).take m).take 8 = p.magicBytes := by
  rw [List.take_take, Nat.min_eq_left hm, frameOf, List.append_assoc, List.take_left' (magicBytes_length p)]

/-- A frame cut off within its header has none (42 R195, R196). -/
theorem unwrap_take_frameOf_of_lt_header (hm : m < wrapHdrLen bs.length) :
    unwrap p maxLen ((frameOf p bs).take m) = .badHeader := by
  rw [wrapHdrLen_eq] at hm
  rcases Nat.lt_or_ge m 8 with hlt | hge
  · exact unwrap_of_not_magic (take_frameOf_not_magic hlt)
  · refine unwrap_of_vdec_none (take_frameOf_magic hge) ?_
    have hcut : ((frameOf p bs).take m).drop 8 = (venc bs.length).take (m - 8) := by
      rw [List.drop_take, frameOf, List.append_assoc, List.drop_left' (magicBytes_length p),
        List.take_append_of_le_length (by omega)]
    rw [hcut, vdec_take_venc (by omega)]

/-- A frame cut off after its header is truncated, with the bytes left of its payload (42 R198). -/
theorem unwrap_take_frameOf_of_header_le (hlen : bs.length < 2 ^ 64) (hceil : bs.length ≤ maxLen)
    (hm : wrapHdrLen bs.length ≤ m) (hcut : m < (frameOf p bs).length) :
    unwrap p maxLen ((frameOf p bs).take m) =
      .truncated (bs.take (m - wrapHdrLen bs.length)) bs.length (wrapHdrLen bs.length) := by
  rw [frameOf_length, ← wrapHdrLen_eq] at hcut
  have hrest : (bs.take (m - wrapHdrLen bs.length)).length < bs.length := by
    rw [List.length_take]
    omega
  obtain ⟨-, hunwrap⟩ := unwrap_headerBytes_append p maxLen (bs.take (m - wrapHdrLen bs.length)) hlen
  rw [frameOf_eq_headerBytes, List.take_append, headerBytes_length,
    List.take_of_length_le (by rwa [headerBytes_length]), hunwrap, if_neg (by omega), if_pos hrest]

end

end Sys2Proof.Machine

/-! SUPPORT. A DECODE of copied OBUF entries, and what its modes make of the frame found (spec 43 R244 to R247,
70 R341). -/

namespace Sys2Proof.Machine

theorem symbolData_take (vs : List Symbol) (m : Nat) : (symbolData vs).take m = symbolData (vs.take m) :=
  List.map_take.symm

theorem symbolData_append (vs ws : List Symbol) : symbolData vs ++ symbolData ws = symbolData (vs ++ ws) :=
  List.map_append.symm

/-- A symbol's entry has the symbol's number (30 R98). -/
theorem symbolData_getD_toNat {vs : List Symbol} {i : Nat} (hi : i < vs.length) :
    ((symbolData vs).getD i 0#16).toNat = vs[i].toNat := by
  have hlt := vs[i].isLt
  rw [List.getD_eq_getElem _ _ (by rwa [symbolData_length])]
  simp only [symbolData, List.getElem_map, BitVec.toNat_setWidth]
  omega

/-- Copied symbol entries are read back as the symbols, none of them absent (30 R97, R98). -/
theorem input_of_holdsEntries {u : State} {vs : List Symbol} (h : u.holdsEntries (symbolData vs)) :
    u.inputSymbols = vs ∧ u.noneAbsent := by
  obtain ⟨hlen, hentries⟩ := h
  rw [symbolData_length] at hlen hentries
  have hvalue (i : Nat) (hi : i < vs.length) : u.inNat i = vs[i].toNat :=
    (hentries i hi).trans (symbolData_getD_toNat hi)
  refine ⟨List.ext_getElem (by rw [inputSymbols_length, hlen]) fun i _ hi => ?symbols, fun i hi => ?present⟩
  case symbols => simp [State.inputSymbols, hvalue i hi]
  case present =>
    rw [hlen] at hi
    rw [hvalue i hi]
    exact vs[i].isLt

/-- The padding is clean exactly when the bits beyond the last whole byte are zero (41 R162). -/
theorem padClean_iff (u : State) : (unpack u.inputSymbols).padClean = true ↔
    ∀ k < 11 * u.inLen.toNat, 8 * (11 * u.inLen.toNat / 8) ≤ k → symbolBit u.inputSymbols k = false := by
  obtain ⟨hcount, -, -, hclean⟩ := unpackClosedForm u.inputSymbols
  rwa [hcount, inputSymbols_length] at hclean

section
variable {u : State} {r : FrameResult}

theorem not_endsByPadding_of_clean (h : (unpack u.inputSymbols).padClean = true) : ¬u.endsByPadding := by
  rintro ⟨-, hunclean⟩
  rw [h] at hunclean
  cases hunclean

theorem not_endsByPadding_of_lenient (h : u.ctrl.strictPadding = false) : ¬u.endsByPadding := by
  rintro ⟨hstrict, -⟩
  rw [h] at hstrict
  cases hstrict

/-- DECODE.FRAMED where the padding does not end it (43 R244). -/
theorem framedResult_of_unwrap (hpad : ¬u.endsByPadding)
    (hr : unwrap u.params u.maxLen.toNat (unpack u.inputSymbols).bytes = r) :
    u.framedResult = framedOutcome u.ctrl (decodeBase (unpack u.inputSymbols)) r := by
  rw [State.framedResult, decodeOutcome_of_not_endsByPadding hpad, hr]

/-- DECODE.AUTO where the padding does not end it and the magic is there (43 R246). -/
theorem autoResult_of_unwrap (hpad : ¬u.endsByPadding)
    (hmagic : (unpack u.inputSymbols).bytes.take 8 = u.params.magicBytes)
    (hr : unwrap u.params u.maxLen.toNat (unpack u.inputSymbols).bytes = r) :
    u.autoResult = autoFrameOutcome u.params u.ctrl (unpack u.inputSymbols) r := by
  rw [State.autoResult, decodeOutcome_of_not_endsByPadding hpad, autoOutcome_of_magic hmagic, hr]

end

section
variable {u : State} {bs more : List Byte} (hpad : ¬u.endsByPadding)
  (hbytes : (unpack u.inputSymbols).bytes = frameOf u.params bs ++ more) (hlen : bs.length < 2 ^ 64)
include hpad hbytes hlen

/-- A whole frame within the ceiling is accepted in both modes, whatever follows it (43 R244, R246 row 2). -/
theorem frame_accepted (hceil : bs.length ≤ u.maxLen.toNat) :
    u.framedResult =
        frameOkOutcome (decodeBase (unpack u.inputSymbols)) bs bs.length (wrapHdrLen bs.length) ∧
      u.autoResult =
        frameOkOutcome (decodeBase (unpack u.inputSymbols)) bs bs.length (wrapHdrLen bs.length) := by
  obtain ⟨hmagic, hunwrap⟩ := unwrap_frameOf_append u.params u.maxLen.toNat more hlen
  rw [← hbytes] at hmagic hunwrap
  rw [if_neg (by omega)] at hunwrap
  exact ⟨framedResult_of_unwrap hpad hunwrap, autoResult_of_unwrap hpad hmagic hunwrap⟩

/-- A frame over the ceiling fails in framed mode and falls back in auto mode (43 R244, R246 row 4). -/
theorem frame_over_ceiling (hover : u.maxLen.toNat < bs.length) :
    u.framedResult = framedOutcome u.ctrl (decodeBase (unpack u.inputSymbols))
        (.absurd bs.length (wrapHdrLen bs.length)) ∧
      u.autoResult = (fallbackOutcome (unpack u.inputSymbols) .absurdLength).withFrame bs.length
        (wrapHdrLen bs.length) := by
  obtain ⟨hmagic, hunwrap⟩ := unwrap_frameOf_append u.params u.maxLen.toNat more hlen
  rw [← hbytes] at hmagic hunwrap
  rw [if_pos hover] at hunwrap
  exact ⟨framedResult_of_unwrap hpad hunwrap, autoResult_of_unwrap hpad hmagic hunwrap⟩

end

section
variable {u : State} {bs : List Byte} {m : Nat} (hpad : ¬u.endsByPadding)
  (hbytes : (unpack u.inputSymbols).bytes = (frameOf u.params bs).take m)
include hpad hbytes

/-- A frame cut off after its header is truncated in both modes (43 R244, R246 rows 5 and 6). -/
theorem cut_payload_truncated (hlen : bs.length < 2 ^ 64) (hceil : bs.length ≤ u.maxLen.toNat)
    (hm : wrapHdrLen bs.length ≤ m) (hcut : m < (frameOf u.params bs).length) :
    u.framedResult = framedOutcome u.ctrl (decodeBase (unpack u.inputSymbols))
        (.truncated (bs.take (m - wrapHdrLen bs.length)) bs.length (wrapHdrLen bs.length)) ∧
      u.autoResult = autoFrameOutcome u.params u.ctrl (unpack u.inputSymbols)
        (.truncated (bs.take (m - wrapHdrLen bs.length)) bs.length (wrapHdrLen bs.length)) := by
  have hmagic := take_frameOf_magic (p := u.params) (bs := bs) (show 8 ≤ m from (Nat.le_add_right _ _).trans hm)
  have hunwrap := unwrap_take_frameOf_of_header_le hlen hceil hm hcut
  rw [← hbytes] at hmagic hunwrap
  exact ⟨framedResult_of_unwrap hpad hunwrap, autoResult_of_unwrap hpad hmagic hunwrap⟩

/-- A frame cut off within its header has a bad header in framed mode; in auto mode it falls back, or is raw where the
magic is cut too (43 R244, R245, R246 row 3). -/
theorem cut_header_bad (hm : m < wrapHdrLen bs.length) :
    u.framedResult = framedOutcome u.ctrl (decodeBase (unpack u.inputSymbols)) .badHeader ∧
      (8 ≤ m → u.autoResult = fallbackOutcome (unpack u.inputSymbols) .badHeader) ∧
      (m < 8 → u.autoResult = rawOutcome (unpack u.inputSymbols)) := by
  have hunwrap := unwrap_take_frameOf_of_lt_header (p := u.params) (maxLen := u.maxLen.toNat) hm
  rw [← hbytes] at hunwrap
  refine ⟨framedResult_of_unwrap hpad hunwrap, fun hge => ?fallback, fun hlt => ?raw⟩
  case fallback =>
    have hmagic := take_frameOf_magic (p := u.params) (bs := bs) hge
    rw [← hbytes] at hmagic
    exact autoResult_of_unwrap hpad hmagic hunwrap
  case raw =>
    have hmagic := take_frameOf_not_magic (p := u.params) (bs := bs) hlt
    rw [← hbytes] at hmagic
    rw [State.autoResult, decodeOutcome_of_not_endsByPadding hpad, autoOutcome_of_not_magic hmagic]

end

theorem inputBytes_length_lt (s : State) : s.inputBytes.length < 2 ^ 64 := by
  have hlen := s.inLen.isLt
  rw [inputBytes_length]
  omega

end Sys2Proof.Machine

/-! SUPPORT. The laws that join an encode and the decode of its result (spec 43 R250 to R255). -/

namespace Sys2Proof.Machine

/-- Settles O51: the unpack is the frame and at most one zero byte, with clean padding. -/
theorem framedRoundTrip : Obligations.FramedRoundTrip := by
  rintro s ⟨-, -, hwritten⟩
  refine ⟨_, exec_encodeFramed hwritten, fun u ⟨_, _, hu⟩ hmagic hholds hceil => ?_⟩
  obtain ⟨hsymbols, hpresent⟩ := input_of_holdsEntries hholds
  obtain ⟨k, -, hbytes, hclean⟩ := unpack_pack (frameOf s.params s.inputBytes)
  rw [← hsymbols] at hbytes hclean
  rw [← frameOf_congr hmagic] at hbytes
  rw [← inputBytes_length] at hceil
  obtain ⟨hresult, -⟩ :=
    frame_accepted (not_endsByPadding_of_clean hclean) hbytes (inputBytes_length_lt s) hceil
  have hexec := exec_decodeFramed hu hpresent
  rw [hresult] at hexec
  exact ⟨_, hexec, rfl, rfl, rfl, rfl⟩

/-- Settles O52: the unpack of a pack, returned whole. -/
theorem rawRoundTrip : Obligations.RawRoundTrip := by
  rintro s ⟨-, -, hwritten⟩
  refine ⟨_, exec_encodeRaw hwritten, fun u ⟨_, _, hu⟩ hholds => ?_⟩
  obtain ⟨hsymbols, hpresent⟩ := input_of_holdsEntries hholds
  obtain ⟨k, hk, hbytes, hclean⟩ := unpack_pack s.inputBytes
  rw [← hsymbols] at hbytes hclean
  have hexec := exec_decodeRaw hu hpresent
  rw [State.rawResult, decodeOutcome_of_not_endsByPadding (not_endsByPadding_of_clean hclean)] at hexec
  exact ⟨_, k, hk, hexec, rfl, rfl, hclean, congrArg byteData hbytes⟩

/-- Settles O54: the unpack is the frame and more, and an unwrap reads no further than the frame. -/
theorem trailingJunkIsIgnored : Obligations.TrailingJunkIsIgnored := by
  rintro s ⟨-, -, hwritten⟩
  refine ⟨_, exec_encodeFramed hwritten, fun u junk ⟨_, _, hu⟩ hmagic hholds hceil hpadding i hi => ?_⟩
  rw [finish_obuf, frameOutcome, symbolData_append] at hholds
  obtain ⟨hsymbols, hpresent⟩ := input_of_holdsEntries hholds
  obtain ⟨more, hbytes⟩ := unpack_pack_append_bytes (frameOf s.params s.inputBytes) junk
  rw [← hsymbols, ← frameOf_congr hmagic] at hbytes
  rw [← inputBytes_length] at hceil
  have hpad : ¬u.endsByPadding := by
    rcases hpadding with hlenient | hzero
    · exact not_endsByPadding_of_lenient hlenient
    · exact not_endsByPadding_of_clean ((padClean_iff u).2 hzero)
  obtain ⟨hframed, hauto⟩ := frame_accepted hpad hbytes (inputBytes_length_lt s) hceil
  have hexecFramed := exec_decodeFramed hu hpresent
  have hexecAuto := exec_decodeAuto hu hpresent
  rw [hframed] at hexecFramed
  rw [hauto] at hexecAuto
  simp only [List.mem_cons, List.not_mem_nil, or_false] at hi
  rcases hi with rfl | rfl
  · exact ⟨_, hexecFramed, rfl, rfl, rfl⟩
  · exact ⟨_, hexecAuto, rfl, rfl, rfl⟩

/-- Settles O55: the ceiling comes before everything but the header, and a frame is longer than its payload. -/
theorem ceilingBelowDeclaredLength : Obligations.CeilingBelowDeclaredLength := by
  rintro s ⟨-, -, hwritten⟩
  refine ⟨_, exec_encodeFramed hwritten, fun u ⟨_, _, hu⟩ hmagic hholds hover => ?_⟩
  obtain ⟨hsymbols, hpresent⟩ := input_of_holdsEntries hholds
  obtain ⟨k, hk, hbytes, hclean⟩ := unpack_pack (frameOf s.params s.inputBytes)
  rw [← hsymbols] at hbytes hclean
  have hdata : ((unpack u.inputSymbols).bytes.map byteEntry) =
      byteData (frameOf s.params s.inputBytes ++ List.replicate k 0#8) := congrArg byteData hbytes
  rw [← frameOf_congr hmagic] at hbytes
  rw [← inputBytes_length] at hover
  obtain ⟨hframed, hauto⟩ :=
    frame_over_ceiling (not_endsByPadding_of_clean hclean) hbytes (inputBytes_length_lt s) hover
  have hexecFramed := exec_decodeFramed hu hpresent
  have hexecAuto := exec_decodeAuto hu hpresent
  rw [hframed] at hexecFramed
  rw [hauto] at hexecAuto
  have hlonger : s.inLen.toNat <
      (byteData (frameOf s.params s.inputBytes ++ List.replicate k 0#8)).length := by
    rw [byteData_length, List.length_append, frameOf_length, inputBytes_length]
    omega
  refine ⟨_, _, k, hk, hexecFramed, rfl, rfl, rfl, hexecAuto, rfl, rfl, hdata,
    hlonger.trans_eq (congrArg List.length hdata).symm, fun heq => ?_⟩
  have hequal := congrArg List.length (hdata.symm.trans heq)
  rw [byteData_length s.inputBytes, inputBytes_length] at hequal
  omega

end Sys2Proof.Machine

/-! SUPPORT. A framed encode with its last words removed (spec 43 R253). -/

namespace Sys2Proof.Machine

section
variable {p : Params} {c : Ctrl} {x : Unpacked} {base : CmdOutcome} {available : List Byte} {len hdr : Nat}

theorem framedOutcome_truncated_of_partial (h : c.allowPartial = true) :
    framedOutcome c base (.truncated available len hdr) = partialOutcome base available len hdr := if_pos h

theorem framedOutcome_truncated_of_not_partial (h : c.allowPartial = false) :
    framedOutcome c base (.truncated available len hdr) = truncatedOutcome base len hdr :=
  if_neg (Bool.eq_false_iff.1 h)

theorem autoFrameOutcome_truncated_of_partial (h : c.allowPartial = true) :
    autoFrameOutcome p c x (.truncated available len hdr) = partialOutcome (decodeBase x) available len hdr := if_pos h

theorem autoFrameOutcome_truncated_of_not_partial (h : c.allowPartial = false) :
    autoFrameOutcome p c x (.truncated available len hdr) = autoTruncOutcome p x len hdr :=
  if_neg (Bool.eq_false_iff.1 h)

/-- Both readings of 43 R247 report the truncation. -/
theorem autoTruncOutcome_code : (autoTruncOutcome p x len hdr).code = .truncated := by
  cases h : p.autoTrunc with
  | hardFail => rw [autoTruncOutcome_of_hardFail h]; rfl
  | fallbackRaw => rw [autoTruncOutcome_of_fallbackRaw h]; rfl

/-- A truncated frame is reported whatever CTRL is (60 R303). -/
theorem framedOutcome_truncated_code :
    (framedOutcome c base (.truncated available len hdr)).code = .truncated := by
  cases h : c.allowPartial with
  | true => rw [framedOutcome_truncated_of_partial h]; rfl
  | false => rw [framedOutcome_truncated_of_not_partial h]; rfl

theorem autoFrameOutcome_truncated_code :
    (autoFrameOutcome p c x (.truncated available len hdr)).code = .truncated := by
  cases h : c.allowPartial with
  | true => rw [autoFrameOutcome_truncated_of_partial h]; rfl
  | false => rw [autoFrameOutcome_truncated_of_not_partial h, autoTruncOutcome_code]

end

section
variable {u : State} {bs : List Byte} {m : Nat}
  (hbytes : (unpack u.inputSymbols).bytes = (frameOf u.params bs).take m)
include hbytes

/-- R253 where the header survives: the payload's start if partial results are allowed, no data if not. -/
theorem cut_payload_results (hlenient : u.ctrl.strictPadding = false) (hlen : bs.length < 2 ^ 64)
    (hceil : bs.length ≤ u.maxLen.toNat) (hm : wrapHdrLen bs.length ≤ m)
    (hcut : m < (frameOf u.params bs).length) :
    u.framedResult.code = .truncated ∧ u.autoResult.code = .truncated ∧
      m - wrapHdrLen bs.length < bs.length ∧
      (u.ctrl.allowPartial = true →
        u.framedResult.result = .partialAccept ∧
        u.framedResult.data = byteData (bs.take (m - wrapHdrLen bs.length)) ∧
        u.autoResult.result = .partialAccept ∧
        u.autoResult.data = byteData (bs.take (m - wrapHdrLen bs.length))) ∧
      (u.ctrl.allowPartial = false →
        u.framedResult.result = .hardFail ∧ u.framedResult.data = [] ∧
        (u.params.autoTrunc = .hardFail → u.autoResult.result = .hardFail ∧ u.autoResult.data = [])) := by
  obtain ⟨hframed, hauto⟩ :=
    cut_payload_truncated (not_endsByPadding_of_lenient hlenient) hbytes hlen hceil hm hcut
  rw [frameOf_length, ← wrapHdrLen_eq] at hcut
  rw [hframed, hauto]
  refine ⟨framedOutcome_truncated_code, autoFrameOutcome_truncated_code, by omega, fun hpartial => ?some,
    fun hpartial => ?none⟩
  case some =>
    rw [framedOutcome_truncated_of_partial hpartial, autoFrameOutcome_truncated_of_partial hpartial]
    exact ⟨rfl, rfl, rfl, rfl⟩
  case none =>
    rw [framedOutcome_truncated_of_not_partial hpartial, autoFrameOutcome_truncated_of_not_partial hpartial]
    refine ⟨rfl, rfl, fun hparam => ?_⟩
    rw [autoTruncOutcome_of_hardFail hparam]
    exact ⟨rfl, rfl⟩

/-- R253 where the header is cut: auto mode returns the whole bitstream, with the defect if the magic survives. -/
theorem cut_header_results (hlenient : u.ctrl.strictPadding = false) (hm : m < wrapHdrLen bs.length) :
    u.framedResult.code = .badHeader ∧ u.framedResult.result = .hardFail ∧ u.framedResult.data = [] ∧
      (8 ≤ m → u.autoResult.code = .badHeader ∧ u.autoResult.result = .fallbackRaw) ∧
      (m < 8 → u.autoResult.code = .noDefect ∧ u.autoResult.result = .accept) ∧
      u.autoResult.data = byteData ((frameOf u.params bs).take m) := by
  obtain ⟨hframed, hfallback, hraw⟩ := cut_header_bad (not_endsByPadding_of_lenient hlenient) hbytes hm
  rw [hframed, ← hbytes]
  refine ⟨rfl, rfl, rfl, fun hge => ?magic, fun hlt => ?noMagic, ?data⟩
  case magic => rw [hfallback hge]; exact ⟨rfl, rfl⟩
  case noMagic => rw [hraw hlt]; exact ⟨rfl, rfl⟩
  case data =>
    rcases Nat.lt_or_ge m 8 with hlt | hge
    · rw [hraw hlt]; rfl
    · rw [hfallback hge]; rfl

end

/-- Strict padding over a leftover bit that is set ends both modes (43 R242). -/
theorem strict_results {u : State} {k : Nat} (hstrict : u.ctrl.strictPadding = true)
    (hge : 8 * (11 * u.inLen.toNat / 8) ≤ k) (hlt : k < 11 * u.inLen.toNat)
    (hbit : symbolBit u.inputSymbols k = true) :
    u.framedResult.code = .badPadding ∧ u.framedResult.result = .hardFail ∧
      u.autoResult.code = .badPadding ∧ u.autoResult.result = .hardFail := by
  have hunclean : (unpack u.inputSymbols).padClean = false := by
    refine Bool.eq_false_iff.2 fun hclean => ?_
    rw [(padClean_iff u).1 hclean k hlt hge] at hbit
    cases hbit
  have hpad : u.endsByPadding := ⟨hstrict, hunclean⟩
  rw [State.framedResult, State.autoResult, decodeOutcome_of_endsByPadding hpad, decodeOutcome_of_endsByPadding hpad]
  exact ⟨rfl, rfl, rfl, rfl⟩

/-- Settles O53: the unpack is a start of the frame, cut off in its payload or in its header. -/
theorem truncationByRemovedWords : Obligations.TruncationByRemovedWords := by
  rintro s ⟨-, -, hwritten⟩
  refine ⟨_, exec_encodeFramed hwritten, fun u removed ⟨_, _, hu⟩ hmagic hremoved hless hholds hceil => ?_⟩
  rw [finish_obuf, frameOutcome] at hless hholds ⊢
  rw [symbolData_take] at hholds
  rw [symbolData_length] at hless hholds ⊢
  obtain ⟨hsymbols, hpresent⟩ := input_of_holdsEntries hholds
  obtain ⟨hbytes, hcut⟩ := unpack_take_pack_bytes (bs := frameOf s.params s.inputBytes)
    (Nat.sub_lt (Nat.zero_lt_of_lt hless) hremoved)
  have hcount : u.inLen.toNat = (pack (frameOf s.params s.inputBytes)).length - removed := by
    rw [← inputSymbols_length, hsymbols, List.length_take, Nat.min_eq_left (Nat.sub_le _ _)]
  rw [← hsymbols, ← hcount] at hbytes
  rw [← hcount] at hcut ⊢
  rw [← frameOf_congr hmagic] at hbytes hcut ⊢
  rw [← inputBytes_length s] at hceil ⊢
  exact ⟨_, _, _, _, exec_decodeFramed hu hpresent, exec_decodeAuto hu hpresent, rfl, rfl,
    fun hlenient hm => cut_payload_results hbytes hlenient (inputBytes_length_lt s) hceil hm hcut,
    fun hlenient hm => cut_header_results hbytes hlenient hm,
    fun hstrict ⟨_, hge, hlt, hbit⟩ => strict_results hstrict hge hlt hbit⟩

end Sys2Proof.Machine

/-! SUPPORT. A command that completes at issue: the two defects that keep the block from becoming BUSY (spec 10 R45,
60 R297, R298). -/

namespace Sys2Proof.Machine

/-- A legal word with IN_LEN above IBUF_DEPTH completes at issue, before any entry is read (60 R298). -/
theorem issue_of_overCapacity {s : State} {w : Word} (hlegal : legal w = true)
    (hover : s.params.ibufDepth < s.inLen.toNat) :
    s.issue w =
      ({ s with lastCmd := w, status := { s.status with ignoredWrite := false, done := false } } : State).finish
        capacityOutcome := by
  rcases issue_cases s w with ⟨hl, -⟩ | ⟨-, -, hi⟩ | ⟨-, hc, -⟩
  · rw [hlegal] at hl; cases hl
  · exact hi
  · omega

/-- Issue of `w` in `s` completed at once in `t` with the outcome `o`: no data, LAST_CMD the word, IGNORED_WRITE cleared
and the configuration unchanged (10 R45, R47; 60 R302). -/
abbrev CompletedAtIssue (s : State) (w : Word) (o : CmdOutcome) (t : State) : Prop :=
  Completed t ∧ t.outcome = o ∧ t.outLen = 0#32 ∧ t.lastCmd = w ∧ t.status.ignoredWrite = false ∧
    t.ctrl = s.ctrl ∧ t.maxLen = s.maxLen ∧ t.inLen = s.inLen ∧ t.ibuf = s.ibuf ∧ t.params = s.params

/-- Completion with no data, from the state that issue has prepared (10 R45). -/
theorem finish_completedAtIssue (s : State) (w : Word) {o : CmdOutcome} (hdata : o.data = []) :
    CompletedAtIssue s w o
      (({ s with lastCmd := w, status := { s.status with ignoredWrite := false, done := false } } : State).finish o) :=
  ⟨finish_completed _ o, rfl, by rw [finish_outLen, hdata]; rfl, rfl, rfl, rfl, rfl, rfl, rfl, rfl⟩

/-- Settles O9: issue completes an illegal word. -/
theorem illegalWordCompletesAtOnce : Obligations.IllegalWordCompletesAtOnce := by
  intro s w hidle hillegal
  rw [hostWrite_cmd_of_idle hidle, issue_of_illegal hillegal]
  exact finish_completedAtIssue s w rfl

/-- Settles O10: issue completes an over-capacity command. -/
theorem capacityCompletesAtOnce : Obligations.CapacityCompletesAtOnce := by
  intro s w hidle hlegal hover
  rw [hostWrite_cmd_of_idle hidle, issue_of_overCapacity hlegal hover]
  exact finish_completedAtIssue s w rfl

end Sys2Proof.Machine

/-! SUPPORT. A command's outcome is a function of its operands: the parameters, CTRL, MAX_LEN and the input (spec
60 R304, 30 R90). -/

namespace Sys2Proof.Machine

/-- `u` has the operands of `s`: the parameters, CTRL, MAX_LEN, IN_LEN and IBUF[0..IN_LEN). -/
structure SameOperands (s u : State) : Prop where
  params : u.params = s.params
  ctrl : u.ctrl = s.ctrl
  maxLen : u.maxLen = s.maxLen
  inLen : u.inLen = s.inLen
  ibuf : ∀ k < s.inLen.toNat, u.ibuf.read k = s.ibuf.read k

section
variable {s u : State} (h : SameOperands s u)
include h

/-- The input read looks at no entry beyond IN_LEN (20 R68). -/
theorem SameOperands.input_ok {es : List InEntry} (hin : s.input = .ok es) : u.input = .ok es := by
  obtain ⟨hlen, hread⟩ := readEntries_ok_iff.1 hin
  refine readEntries_ok_iff.2 ⟨hlen.trans (congrArg BitVec.toNat h.inLen.symm), fun k hk => ?_⟩
  rw [h.inLen] at hk
  rw [← hread k hk, Nat.zero_add, h.ibuf k hk]

/-- Both states run a command as the same function of the input: beside its input a command reads the parameters, CTRL
and MAX_LEN alone (30 R90). -/
theorem SameOperands.exec_eq_withInput (i : Instr) :
    ∃ f, exec i s = withInput s f ∧ exec i u = withInput u f := by
  obtain ⟨hparams, hctrl, hmaxLen, -, -⟩ := h
  cases i with
  | encodeRaw => exact ⟨_, rfl, rfl⟩
  | encodeFramed | frameWrap => exact ⟨_, rfl, by rw [← hparams]; rfl⟩
  | decodeRaw => exact ⟨_, rfl, by rw [← hctrl]; rfl⟩
  | decodeFramed | decodeAuto | frameUnwrap => exact ⟨_, rfl, by rw [← hparams, ← hctrl, ← hmaxLen]; rfl⟩

end

/-- Settles O32: the two states read the same input and complete with the same function of it. -/
theorem sameOperandsSameOutcome : Obligations.SameOperandsSameOutcome := by
  intro i s u t hparams hctrl hmaxLen hinLen hibuf hs
  have hsame : SameOperands s u := ⟨hparams, hctrl, hmaxLen, hinLen, hibuf⟩
  obtain ⟨f, hfs, hfu⟩ := hsame.exec_eq_withInput i
  rw [hfs] at hs
  rcases withInput_cases s f with ⟨es, hin, he⟩ | ⟨_, -, he⟩ <;> rw [he] at hs <;> cases hs
  refine ⟨u.finish (f es), ?_, rfl, rfl, finish_sameConfig u _⟩
  rw [hfu, withInput, hsame.input_ok hin]

end Sys2Proof.Machine

/-! SUPPORT. Which defect each outcome of a command reports, and with which RESULT: the table of spec 60 R299. -/

namespace Sys2Proof.Machine

/-- The rows of 60 R299 that the outcome `o` of the command `i` run in `s` can be in; row TRUNCATED by ALLOW_PARTIAL and
the parameter of 43 R247. -/
inductive CmdOutcome.Severity (i : Instr) (s : State) (o : CmdOutcome) : Prop
  | noDefect (hcode : o.code = .noDefect) (hresult : o.result = .accept)
  | badWord (hi : i ∈ [Instr.decodeRaw, .decodeFramed, .decodeAuto])
      (hcode : o.code = .badWord) (hresult : o.result = .hardFail) (hdata : o.data = [])
  | badPadding (hi : i ∈ [Instr.decodeRaw, .decodeFramed, .decodeAuto]) (hstrict : s.ctrl.strictPadding = true)
      (hcode : o.code = .badPadding) (hresult : o.result = .hardFail)
  | headerHardFail (hi : i ∈ [Instr.decodeFramed, .frameUnwrap])
      (hcode : o.code = .badHeader ∨ o.code = .absurdLength) (hresult : o.result = .hardFail) (hdata : o.data = [])
  | headerFallback (hi : i = .decodeAuto)
      (hcode : o.code = .badHeader ∨ o.code = .absurdLength) (hresult : o.result = .fallbackRaw)
  | truncatedPartial (hi : i ∈ [Instr.decodeFramed, .decodeAuto, .frameUnwrap]) (hallow : s.ctrl.allowPartial = true)
      (hcode : o.code = .truncated) (hresult : o.result = .partialAccept)
  | truncatedHardFail (hi : i ∈ [Instr.decodeFramed, .decodeAuto, .frameUnwrap]) (hallow : s.ctrl.allowPartial = false)
      (hparam : ¬(i = .decodeAuto ∧ s.params.autoTrunc = .fallbackRaw))
      (hcode : o.code = .truncated) (hresult : o.result = .hardFail) (hdata : o.data = [])
  | truncatedFallback (hi : i = .decodeAuto) (hallow : s.ctrl.allowPartial = false)
      (hparam : s.params.autoTrunc = .fallbackRaw)
      (hcode : o.code = .truncated) (hresult : o.result = .fallbackRaw)

/-- The four ends of 42 R203, on any base. -/
theorem framedOutcome_severity {i : Instr} {b : CmdOutcome} (hi : i ∈ [Instr.decodeFramed, .frameUnwrap]) (s : State)
    (hb : b.Fresh) (r : FrameResult) : (framedOutcome s.ctrl b r).Severity i s := by
  cases r with
  | ok payload len hdr => exact .noDefect hb.code hb.result
  | badHeader => exact .headerHardFail hi (.inl rfl) rfl hb.data
  | absurd len hdr => exact .headerHardFail hi (.inr rfl) rfl hb.data
  | truncated available len hdr =>
    have htrunc : i ∈ [Instr.decodeFramed, .decodeAuto, .frameUnwrap] ∧ i ≠ .decodeAuto := by
      simp only [List.mem_cons, List.not_mem_nil, or_false] at hi
      rcases hi with rfl | rfl <;> decide
    obtain ⟨hmem, hauto⟩ := htrunc
    simp only [framedOutcome]
    split
    case isTrue hallow => exact .truncatedPartial hmem hallow rfl rfl
    case isFalse hallow =>
      exact .truncatedHardFail hmem (Bool.eq_false_iff.2 hallow) (fun ⟨h, _⟩ => hauto h) rfl rfl hb.data

/-- The six rows of 43 R246. -/
theorem autoOutcome_severity (s : State) (maxLen : Nat) (u : Unpacked) :
    (autoOutcome s.params s.ctrl maxLen u).Severity .decodeAuto s := by
  rcases autoOutcome_cases s.params s.ctrl maxLen u with
    ⟨-, h⟩ | ⟨-, ⟨_, _, _, -, h⟩ | ⟨-, h⟩ | ⟨_, _, -, h⟩ |
      ⟨_, _, _, -, ⟨hallow, h⟩ | ⟨hallow, hparam, h⟩ | ⟨hallow, hparam, h⟩⟩⟩ <;> rw [h]
  · exact .noDefect rfl rfl
  · exact .noDefect rfl rfl
  · exact .headerFallback rfl (.inl rfl) rfl
  · exact .headerFallback rfl (.inr rfl) rfl
  · exact .truncatedPartial (by decide) hallow rfl rfl
  · exact .truncatedHardFail (by decide) hallow (by simp [hparam]) rfl rfl rfl
  · exact .truncatedFallback rfl hallow hparam rfl rfl

/-- The prologue of a DECODE adds BAD_WORD and BAD_PADDING to what its mode can report (43 R240 to R242). -/
theorem tokensOutcome_severity {i : Instr} {f : Unpacked → CmdOutcome} (s : State)
    (hi : i ∈ [Instr.decodeRaw, .decodeFramed, .decodeAuto]) (hf : ∀ u, (f u).Severity i s) (es : List InEntry) :
    (tokensOutcome s.ctrl f es).Severity i s := by
  rcases tokensOutcome_cases s.ctrl f es with ⟨_, -, ho⟩ | ⟨-, ⟨hpad, ho⟩ | ⟨-, ho⟩⟩ <;> rw [ho]
  · exact .badWord hi rfl rfl rfl
  · exact .badPadding hi ((badPadding_iff _ _).1 hpad).1 rfl rfl
  · exact hf _

theorem withInput_next_severity {i : Instr} {s t : State} {f : List InEntry → CmdOutcome}
    (h : withInput s f = .next t) (hf : ∀ es, (f es).Severity i s) : ∃ o, t = s.finish o ∧ o.Severity i s := by
  obtain ⟨es, -, ht⟩ := withInput_next h
  exact ⟨_, ht, hf es⟩

/-- Every command completes in a row of 60 R299. -/
theorem exec_next_severity {i : Instr} {s t : State} (h : exec i s = .next t) :
    ∃ o, t = s.finish o ∧ o.Severity i s := by
  cases i with
  | encodeRaw | encodeFramed | frameWrap => exact withInput_next_severity h fun _ => .noDefect rfl rfl
  | frameUnwrap =>
    exact withInput_next_severity h fun _ => framedOutcome_severity (by decide) s outcome0_fresh _
  | decodeRaw =>
    exact withInput_next_severity h (tokensOutcome_severity s (by decide) fun _ => .noDefect rfl rfl)
  | decodeFramed =>
    exact withInput_next_severity h (tokensOutcome_severity s (by decide) fun u =>
      framedOutcome_severity (by decide) s (unpackedOutcome_fresh u) _)
  | decodeAuto =>
    exact withInput_next_severity h (tokensOutcome_severity s (by decide) (autoOutcome_severity s _))

/-- Settles O42: the completion's outcome is in a row of the table. -/
theorem severityByMode : Obligations.SeverityByMode := by
  intro i s t h
  obtain ⟨o, rfl, ho⟩ := exec_next_severity h
  rw [finish_status_code, finish_status_result, finish_obuf]
  cases ho with
  | noDefect hcode hresult => rw [hcode]; exact hresult
  | badWord hi hcode hresult hdata => rw [hcode]; exact ⟨hi, hresult, hdata⟩
  | badPadding hi hstrict hcode hresult => rw [hcode]; exact ⟨hi, hstrict, hresult⟩
  | headerHardFail hi hcode hresult hdata =>
    rcases hcode with hcode | hcode <;> rw [hcode] <;> exact .inl ⟨hi, hresult, hdata⟩
  | headerFallback hi hcode hresult =>
    rcases hcode with hcode | hcode <;> rw [hcode] <;> exact .inr ⟨hi, hresult⟩
  | truncatedPartial hi hallow hcode hresult =>
    rw [hcode, hallow]
    exact ⟨hi, fun _ => hresult, nofun⟩
  | truncatedHardFail hi hallow hparam hcode hresult hdata =>
    rw [hcode, hallow, if_neg hparam]
    exact ⟨hi, nofun, fun _ => ⟨hresult, hdata⟩⟩
  | truncatedFallback hi hallow hparam hcode hresult =>
    rw [hcode, hallow, if_pos ⟨hi, hparam⟩]
    exact ⟨by rw [hi]; decide, nofun, fun _ => hresult⟩

end Sys2Proof.Machine

/-! SUPPORT. The block while BUSY, as the host sees it: which writes it drops and flags, and which reads are current
(spec 70 R335 to R337). -/

namespace Sys2Proof.Machine

/-- An offset whose number is that of a register in `rs` is that register's offset (20 R61). -/
theorem reg_of_offset_mem {rs : List Reg} {offset : Word} (h : offset.toNat ∈ rs.map Reg.offset) :
    ∃ r ∈ rs, offset = BitVec.ofNat 32 r.offset := by
  obtain ⟨r, hr, ho⟩ := List.mem_map.1 h
  exact ⟨r, hr, by rw [ho, BitVec.ofNat_toNat, BitVec.setWidth_eq]⟩

/-- An offset in the OBUF window names an entry of OBUF, aligned or not (20 R63). -/
theorem targetOf_obufWindow {p : Params} {offset : Word} (hlow : 0x80000000 ≤ offset.toNat)
    (hhigh : offset.toNat < 0x80000000 + 4 * p.obufDepth) : ∃ i < p.obufDepth, targetOf p offset = .obuf i := by
  have hi : (offset.toNat - 0x80000000) / 4 < p.obufDepth := by omega
  refine ⟨_, hi, ?_⟩
  unfold targetOf ibufBase obufBase
  dsimp only
  rw [if_neg (by omega), if_neg (by omega), if_pos hi]

/-- A read in the OBUF window is a read of an OBUF entry (20 R63). -/
theorem hostRead_obufWindow {s : State} {offset : Word} (hlow : 0x80000000 ≤ offset.toNat)
    (hhigh : offset.toNat < 0x80000000 + 4 * s.params.obufDepth) : ∃ i, s.hostRead offset = s.readObuf i := by
  obtain ⟨i, -, ht⟩ := targetOf_obufWindow hlow hhigh
  exact ⟨i, by rw [State.hostRead, ht]⟩

/-- The registers whose writes BUSY drops and flags (70 R336). -/
def busyDroppedRegs : List Reg := [.cmd, .ctrl, .maxLenLo, .maxLenHi, .inLen]

/-- The result registers, whose reads are arbitrary while BUSY (70 R335). -/
def resultRegs : List Reg := [.outLen, .declLenLo, .declLenHi, .hdrLen, .badwordPos]

section
variable {s : State} (hbusy : s.busy = true)
include hbusy

/-- BUSY drops and flags a write of the configuration or of CMD (70 R336). -/
theorem writeReg_of_busy {r : Reg} (hr : r ∈ busyDroppedRegs) (v : Word) :
    s.writeReg r v = { s with status := { s.status with ignoredWrite := true } } := by
  cases r
  case cmd | ctrl | maxLenLo | maxLenHi | inLen =>
    dsimp only [State.writeReg]
    exact unlessBusy_of_busy hbusy _
  all_goals exact absurd hr (by decide)

/-- BUSY drops and flags a write of an IBUF entry (70 R336). -/
theorem hostWrite_ibuf_of_busy {i : Nat} {offset : Word} (hp : s.params.wf) (hi : i < s.params.ibufDepth)
    (ho : offset.toNat = 0x40000000 + 4 * i) (v : Word) :
    s.hostWrite offset v = { s with status := { s.status with ignoredWrite := true } } := by
  rw [State.hostWrite, targetOf_ibuf hp hi ho]
  exact unlessBusy_of_busy hbusy _

theorem readResult_of_busy (v : Word) : s.readResult v = s.draw := if_pos hbusy

theorem readObuf_of_busy (i : Nat) : s.readObuf i = s.draw := if_pos hbusy

/-- A result register reads as the next free value while BUSY (70 R335). -/
theorem readReg_result_of_busy {r : Reg} (hr : r ∈ resultRegs) : s.readReg r = s.draw := by
  cases r
  case outLen | declLenLo | declLenHi | hdrLen | badwordPos => exact readResult_of_busy hbusy _
  all_goals exact absurd hr (by decide)

theorem hostRead_status_of_busy : s.hostRead 0x004#32 = (s.busyStatusWord s.draw.1, s.draw.2) :=
  (hostRead_reg s .status).trans (if_pos hbusy)

end

/-- While BUSY bits 15:4 of STATUS, the result fields, are those of the arbitrary word (70 R335). -/
theorem busyStatusWord_resultFields (s : State) (x : Word) :
    (s.busyStatusWord x).extractLsb' 4 12 = x.extractLsb' 4 12 := by
  refine extractLsb'_eq_of_bits fun k hk => ?_
  rw [State.busyStatusWord, packStatus_getLsbD _ _ _ _ _ _ _ _ _ _ (by omega)]
  interval_cases k <;> simp

theorem hostRead_lastCmd (s : State) : s.hostRead 0x02C#32 = (s.lastCmd, s) := hostRead_reg s .lastCmd

/-- Settles O11: BUSY drops the writes of R336; every other aligned offset is read-only or reserved. -/
theorem busyWritesAreDropped : Obligations.BusyWritesAreDropped := by
  intro s offset v hp hbusy haligned
  split
  case isTrue hdropped =>
    rcases hdropped with hreg | ⟨hlow, hhigh⟩
    · obtain ⟨r, hr, rfl⟩ := reg_of_offset_mem (rs := busyDroppedRegs) hreg
      rw [hostWrite_reg]
      exact writeReg_of_busy hbusy hr v
    · exact hostWrite_ibuf_of_busy (i := (offset.toNat - 0x40000000) / 4) hbusy hp (by omega) (by omega) v
  case isFalse hkept =>
    simp only [List.mem_cons, List.not_mem_nil, or_false] at hkept
    by_cases hgap : 0x03C < offset.toNat ∧ offset.toNat < 0x80000000
    · obtain ⟨hlow, hhigh⟩ := hgap
      obtain ⟨-, hignored⟩ := reservedOffsetsReadZero s offset v hp haligned hlow (by omega) (by omega)
      exact hignored
    · refine readOnlyWritesAreIgnored s offset v ?_
      simp only [List.mem_cons, List.not_mem_nil, or_false]
      omega

/-- Settles O19: results and OBUF draw, the configuration and written input read as they are. -/
theorem busyReads : Obligations.BusyReads := by
  intro s hp hbusy
  refine ⟨fun offset ho => ?results, ?status, congrArg Prod.fst (hostRead_reg s .ctrl), ?maxLenLo, ?maxLenHi,
    hostRead_inLen s, congrArg Prod.fst (hostRead_lastCmd s), fun i e offset hi he ho => ?ibuf⟩
  case results =>
    rcases ho with hreg | ⟨hlow, hhigh⟩
    · obtain ⟨r, hr, rfl⟩ := reg_of_offset_mem (rs := resultRegs) hreg
      rw [hostRead_reg]
      exact readReg_result_of_busy hbusy hr
    · obtain ⟨i, hread⟩ := hostRead_obufWindow hlow hhigh
      rw [hread]
      exact readObuf_of_busy hbusy i
  case status =>
    rw [hostRead_status_of_busy hbusy]
    exact busyStatusWord_resultFields s s.draw.1
  case maxLenLo => rw [hostRead_maxLenLo, low_toNat]
  case maxLenHi => rw [hostRead_maxLenHi, high_toNat]
  case ibuf =>
    rw [hostRead_ibuf hp hi ho, readIbuf_of_written he]
    exact BitVec.toNat_setWidth_of_le (by omega)

end Sys2Proof.Machine

/-! SUPPORT. A running command reaches completion: every step serves one of the accesses LATENCY allows or runs the
engine (spec 70 R342, R343; entry 4). -/

namespace Sys2Proof.Machine

/-- A running command that nothing keeps from completing: its input is written (70 R340), and what the host still does
are accesses inside the interface (20 R64), RESET not among them. -/
structure State.Completable (s : State) : Prop where
  busy : s.phase = .busy
  written : s.inputWritten
  accesses : ∀ e ∈ s.pending, e.wellFormed = true ∧ e ≠ .reset

/-- `s` completes within `n` steps. -/
def State.CompletesWithin (s : State) (n : Nat) : Prop := ∃ k t, k ≤ n ∧ core.run k s = .next t ∧ Completed t

theorem core_run_succ {s t : State} (h : step s = .next t) (k : Nat) : core.run (k + 1) s = core.run k t := by
  have hcore : core.step s = .next t := h
  simp only [Host.Core.run, hcore]

/-- One step before completion is one step more to it. -/
theorem State.CompletesWithin.of_step {s t : State} {n : Nat} (h : step s = .next t) (ht : t.CompletesWithin n) :
    s.CompletesWithin (n + 1) := by
  obtain ⟨k, u, hk, hrun, hu⟩ := ht
  exact ⟨k + 1, u, Nat.succ_le_succ hk, (core_run_succ h k).trans hrun, hu⟩

/-- In its turn the engine completes a command whose input is written, or an illegal word (70 R343). -/
theorem step_of_engineTurn_of_written {s : State} (hbusy : s.phase = .busy) (hwritten : s.inputWritten)
    (hturn : s.pending = [] ∨ s.wait = 0) : ∃ o, step s = .next (s.finish o) := by
  have hfetch := fetch_of_engineTurn hbusy hturn
  cases hd : decode s.cur with
  | ok i =>
    obtain ⟨t, ht⟩ := (unwrittenInputFaults i s).2 hwritten
    obtain ⟨o, rfl⟩ := exec_next ht
    exact ⟨o, (step_of_decode hfetch hd).trans ht⟩
  | error r => exact ⟨illegalOutcome, by simp only [step, hfetch, hd]⟩

theorem State.Completable.completesWithin_of_engineTurn {s : State} (h : s.Completable)
    (hturn : s.pending = [] ∨ s.wait = 0) (n : Nat) : s.CompletesWithin (n + 1) := by
  obtain ⟨o, ho⟩ := step_of_engineTurn_of_written h.busy h.written hturn
  exact .of_step ho ⟨0, s.finish o, Nat.zero_le n, rfl, finish_completed s o⟩

/-- An access served while BUSY leaves the command completable, with one access fewer to serve (70 R336). -/
theorem State.Completable.step_serves {s : State} {e : HostEvent} {es : List HostEvent} (h : s.Completable)
    (hp : s.pending = e :: es) (hw : 0 < s.wait) :
    ∃ t, step s = .next t ∧ t.Completable ∧ t.wait = s.wait - 1 := by
  have haccesses := h.accesses
  rw [hp] at haccesses
  obtain ⟨⟨hwf, hreset⟩, hrest⟩ := List.forall_mem_cons.1 haccesses
  obtain ⟨t, hstep, hbusy, -, -, -, hwait, hpending, -, -, -, hinLen, hibuf, -⟩ :=
    busyAccessKeepsCommand s e es h.busy hp hw hwf hreset
  refine ⟨t, hstep, ⟨hbusy, ?written, ?accesses⟩, hwait⟩
  case written =>
    intro i hi
    rw [hinLen] at hi
    rw [hibuf]
    exact h.written i hi
  case accesses => rwa [hpending]

/-- By induction on the accesses still to serve: each step serves one, and the last runs the engine. -/
theorem State.Completable.completesWithin {s : State} {n : Nat} (h : s.Completable) (hn : s.wait = n) :
    s.CompletesWithin (n + 1) := by
  induction n generalizing s with
  | zero => exact h.completesWithin_of_engineTurn (.inr hn) 0
  | succ n ih =>
    cases hp : s.pending with
    | nil => exact h.completesWithin_of_engineTurn (.inl hp) (n + 1)
    | cons e es =>
      obtain ⟨t, hstep, ht, hwait⟩ := h.step_serves hp (by omega)
      exact .of_step hstep (ih ht (by omega))

/-- Settles O57: such a command is completable. -/
theorem everyCommandCompletes : Obligations.EveryCommandCompletes := by
  intro s hbusy hwritten haccesses
  have h : s.Completable := ⟨hbusy, hwritten, haccesses⟩
  obtain ⟨k, t, hk, hrun, ht⟩ := h.completesWithin rfl
  exact ⟨k, t, hk, hrun, ht.idle, ht.done⟩

end Sys2Proof.Machine

/-! SUPPORT. The state after RESET (spec 70 R331). -/

namespace Sys2Proof.Machine

/-- The hard-wired registers (10 R40, R41). -/
def hardwiredRegs : List Reg := [.magicLo, .magicHi, .ibufDepth, .obufDepth]

/-- A hard-wired register reads as the parameters say, so alike in states with the same parameters (10 R40, R41). -/
theorem hostRead_hardwired_congr {s t : State} (h : t.params = s.params) {r : Reg} (hr : r ∈ hardwiredRegs) :
    (t.hostRead (BitVec.ofNat 32 r.offset)).1 = (s.hostRead (BitVec.ofNat 32 r.offset)).1 := by
  rw [hostRead_reg, hostRead_reg]
  cases r
  case magicLo | magicHi | ibufDepth | obufDepth => simp only [State.readReg, h]
  all_goals exact absurd hr (by decide)

/-- STATUS after RESET is the reset state's, 0 (70 R331). -/
theorem statusWord_applyReset (s : State) : s.applyReset.statusWord = 0#32 :=
  calc s.applyReset.statusWord = State.reset.statusWord := rfl
    _ = 0#32 := rfl

theorem hostRead_status_applyReset (s : State) : s.applyReset.hostRead 0x004#32 = (0#32, s.applyReset) := by
  rw [hostRead_status_of_idle (applyReset_phase s), statusWord_applyReset]

/-- OUT_LEN is 0 after RESET, so every OBUF entry reads as 16 free bits (70 R331, 20 R67; entry 8). -/
theorem hostRead_obufWindow_applyReset {s : State} {offset : Word} (hlow : 0x80000000 ≤ offset.toNat)
    (hhigh : offset.toNat < 0x80000000 + 4 * s.params.obufDepth) :
    (s.applyReset.hostRead offset).1.toNat = (Config.freeWord s.applyReset.draws).toNat % 2 ^ 16 := by
  obtain ⟨i, hread⟩ := hostRead_obufWindow (s := s.applyReset) hlow hhigh
  rw [hread, readObuf_of_outLen_le (applyReset_phase s) (Nat.zero_le i)]
  exact lowBits_toNat _ (by decide)

/-- Settles O25: the state is `applyReset`, whose fields are the table's. -/
theorem resetValues : Obligations.ResetValues := by
  intro s
  refine ⟨s.applyReset, rfl, rfl, rfl, congrArg Prod.fst (hostRead_status_applyReset s),
    rfl, rfl, rfl, rfl, rfl, rfl, rfl, rfl, rfl, rfl,
    fun offset ho => ?hardwired, fun _ => rfl, fun _ _ hlow hhigh => hostRead_obufWindow_applyReset hlow hhigh⟩
  have hmem : offset ∈ hardwiredRegs.map fun r => BitVec.ofNat 32 r.offset := ho
  obtain ⟨r, hr, rfl⟩ := List.mem_map.1 hmem
  exact hostRead_hardwired_congr (applyReset_params s) hr

/-- RESET of the reset state changes nothing: it has the parameters of the block and nothing to come. -/
theorem applyReset_reset : State.reset.applyReset = State.reset := rfl

/-- Settles O26: the reset state is what RESET leaves of itself, and RESET establishes both invariants. -/
theorem resetMeetsInvariants : Obligations.ResetMeetsInvariants := by
  unfold Obligations.ResetMeetsInvariants
  rw [← applyReset_reset]
  exact ⟨applyReset_inv params_wf, applyReset_resultInv State.reset⟩

end Sys2Proof.Machine
